-- ==== Sys2Proof/Word.lean ====
section
/-! DEFINITION. The widths of the codec's data (spec/00_scope.md R11, R13, R14). -/

namespace Sys2Proof

/-- A byte: 8 bits, 0 to 255 (R13). -/
abbrev Byte := BitVec 8

/-- A value of the codec: `VALUE_W` = 64 bits, unsigned (R11). -/
abbrev Value := BitVec 64

/-- A length or count on a port: `LEN_W` = 4 bits (R11). -/
abbrev Count := BitVec 4

/-- A byte buffer on ports: `BUF_LANES` = 9 byte lanes, lane 0 first (R11, R14). -/
abbrev Lanes := Vector Byte 9

end Sys2Proof
end

