-- ==== Sys2Proof/Syntax.lean ====
section
/-! DEFINITION. What can be written down: size classes, byte orders, the rows of the opcode table as instructions,
their code words, and encoded forms (spec/30_encoding.md, spec/opcode_table.json). -/

namespace Sys2Proof

/-- "one of Tiny, Small, Medium, Large, determined by a value's magnitude, fixing the encoded payload width" (R17). -/
inductive SizeClass where
  | tiny
  | small
  | medium
  | large
deriving DecidableEq, Repr

/-- The byte order of a payload (R17, R43). -/
inductive ByteOrder where
  | littleEndian
  | bigEndian
deriving DecidableEq, Repr

/-- One constructor per row of spec/opcode_table.json.
The first four are the operations the request selector names (R69); their operands stand on the ports (R72).
The others are the wire prefixes, byte 0 of an encoded form (R64); a Tiny row's argument is its `v` bits, and the
argument's width is the row's number of `v` bits, so every term is a word of its row. -/
inductive Instr where
  /-- DECODE.LE, selector 00 (R84). -/
  | decodeLE
  /-- DECODE.BE, selector 01 (R85). -/
  | decodeBE
  /-- ENCODE.LE, selector 10 (R103). -/
  | encodeLE
  /-- ENCODE.BE, selector 11 (R104). -/
  | encodeBE
  /-- PREFIX.TINY.00-7F, byte `0vvvvvvv`. -/
  | prefixTiny00 (v : BitVec 7)
  /-- PREFIX.TINY.80-BF, byte `10vvvvvv`. -/
  | prefixTiny80 (v : BitVec 6)
  /-- PREFIX.TINY.C0-DF, byte `110vvvvv`. -/
  | prefixTinyC0 (v : BitVec 5)
  /-- PREFIX.TINY.E0-EF, byte `1110vvvv`. -/
  | prefixTinyE0 (v : BitVec 4)
  /-- PREFIX.TINY.F0-F7, byte `11110vvv`. -/
  | prefixTinyF0 (v : BitVec 3)
  /-- PREFIX.TINY.F8-FB, byte `111110vv`. -/
  | prefixTinyF8 (v : BitVec 2)
  /-- PREFIX.TINY.FC, byte `11111100`. -/
  | prefixTinyFC
  /-- PREFIX.SMALL, byte `11111101`. -/
  | prefixSmall
  /-- PREFIX.MEDIUM, byte `11111110`. -/
  | prefixMedium
  /-- PREFIX.LARGE, byte `11111111`. -/
  | prefixLarge
deriving DecidableEq, Repr

/-- The word that selects an instruction: the table has two formats, which are matched in two different places. -/
inductive CodeWord where
  /-- Format REQ_SELECT: the selector `op[1:0]` (R69). -/
  | reqSelect (op : BitVec 2)
  /-- Format WIRE_PREFIX: byte 0 of an encoded form (R64). -/
  | wirePrefix (byte : Byte)
deriving DecidableEq, Repr

/-- An encoded form: the wire prefix and the payload bytes that follow it (R65). -/
structure EncodedForm where
  head    : Instr
  payload : List Byte
deriving DecidableEq, Repr

/-- Why no encoded form stands at the start of a byte sequence: the two names of the error taxonomy (R120). -/
inductive FormError where
  /-- No byte at all (R121). -/
  | empty
  /-- Fewer bytes than the selected class requires; both counts include byte 0 (R122). -/
  | truncated (needed available : Nat)
deriving DecidableEq, Repr

/-- What reading an encoded form off the start of a byte sequence gives: the form and the bytes after it, or an error. -/
inductive SplitResult where
  | form (f : EncodedForm) (rest : List Byte)
  | error (e : FormError)
deriving DecidableEq, Repr

end Sys2Proof
end

