-- ==== Sys2Proof/Machine/State.lean ====
section
/-! DEFINITION. The machine's state: what the embedding drives on the input ports of the two blocks, and what the last
requests returned (spec/10_state.md). The blocks themselves hold nothing (R20), so no output port is stored: the output
ports are `State.decOut` and `State.encOut` of Machine/Ops.lean, functions of the inputs at every time (R32, R33, R140). -/

namespace Sys2Proof.Machine

/-- Which of the two blocks receives a request: the unit bit `op[1]` of the selector (R1, R69). -/
inductive Block where
  | decoder
  | encoder
deriving DecidableEq, Repr

/-- The decoder's three results as the source names them (R71, R120). -/
inductive Status where
  | ok
  | empty
  | truncated
deriving DecidableEq, Repr

/-- How a decode ends: `return Ok(value, consumed)`, `raise Empty()` or `raise Truncated(needed, available)` (R15, R83). -/
inductive DecResult where
  | ok (value : Value) (consumed : Nat)
  | empty
  | truncated (needed available : Nat)
deriving DecidableEq, Repr

/-- The decoder's input ports `dec_buf`, `dec_len`, `dec_order` (R26); also a mask over their bits. -/
structure DecIn where
  buf   : Lanes
  len   : Count
  order : BitVec 1
deriving DecidableEq, Repr

/-- The values of the decoder's output ports `dec_status`, `dec_value`, `dec_consumed`, `dec_needed`, `dec_available`
(R27); as a response, the record `DecResp` (R34). -/
structure DecOut where
  status    : BitVec 2
  value     : Value
  consumed  : Count
  needed    : Count
  available : Count
deriving DecidableEq, Repr

/-- The encoder's input ports `enc_value`, `enc_order` (R29); also a mask over their bits. -/
structure EncIn where
  value : Value
  order : BitVec 1
deriving DecidableEq, Repr

/-- The values of the encoder's output ports `enc_buf`, `enc_len` (R29); as a response, the record `EncResp` (R34). -/
structure EncOut where
  buf : Lanes
  len : Count
deriving DecidableEq, Repr

/-- Nine lanes of 0x00. -/
def Lanes.zeros : Lanes := #v[0, 0, 0, 0, 0, 0, 0, 0, 0]

/-- Decoder inputs all 0; as a mask, no bit set. -/
def DecIn.zeros : DecIn := ⟨Lanes.zeros, 0, 0⟩

/-- Encoder inputs all 0; as a mask, no bit set. -/
def EncIn.zeros : EncIn := ⟨0, 0⟩

/-- The state. `decUnknown` and `encUnknown` are masks over the input bits: a 1 says that the bit is undriven or
unknown, so that the request has no response (R28, 92_eei_decisions.md D22; assumption 3). `decResp` and `encResp` are the
responses that the requests on the ports returned (R34), none where no request was served since the inputs were driven
(R142; assumption 4). -/
structure State where
  block      : Block
  decIn      : DecIn
  decUnknown : DecIn
  decResp    : Option DecOut
  encIn      : EncIn
  encUnknown : EncIn
  encResp    : Option EncOut
deriving DecidableEq, Repr

/-- Why the machine stops with a fault. The spec has no fault (R123, R126). -/
inductive Fault where
  /-- An access to a lane above 8, which does not exist (R40). Raised by the lane accesses of the decode and encode
  operations; safe. No request makes one (R92). -/
  | noSuchLane
deriving DecidableEq, Repr

/-- Why a request or a host action gets no response. -/
inductive Refusal where
  /-- An instruction without a meaning, rejected by name. No arm of exec answers with it; safe. -/
  | notModelled (mnemonic : String)
  /-- A request with an undriven or unknown input bit (R28, D22, I9). Raised by all fourteen instructions; safe. -/
  | unknownInput
  /-- The embedding reads `dec_status` = 3, which no block of this spec drives (R71, I6). Raised by
  Embedding.advance and by no instruction; safe. -/
  | statusNotDriven
deriving DecidableEq, Repr

/-- The machine after reset. The block has no reset (R140): the input ports hold what the embedding drives, here 0, all
bits known, the decoder asked first (assumptions 1, 2, 3); no request has been served (assumption 5). -/
def State.reset : State where
  block := .decoder
  decIn := DecIn.zeros
  decUnknown := DecIn.zeros
  decResp := none
  encIn := EncIn.zeros
  encUnknown := EncIn.zeros
  encResp := none

/-- A decode request returns its response (R34). -/
def State.setDecResp (s : State) (o : DecOut) : State := { s with decResp := some o }

/-- An encode request returns its response (R34). -/
def State.setEncResp (s : State) (o : EncOut) : State := { s with encResp := some o }

/-- The embedding chooses which block receives the next request. -/
def State.setBlock (s : State) (b : Block) : State := { s with block := b }

/-- The embedding drives the decoder inputs; the mask says which bits it leaves unknown. What an earlier request returned
is no response to these inputs, so none is on record until a step serves them (R142). -/
def State.setDecIn (s : State) (i mask : DecIn) : State :=
  { s with decIn := i, decUnknown := mask, decResp := none }

/-- The embedding drives the encoder inputs; the mask says which bits it leaves unknown. What an earlier request returned
is no response to these inputs, so none is on record until a step serves them (R142). -/
def State.setEncIn (s : State) (i mask : EncIn) : State :=
  { s with encIn := i, encUnknown := mask, encResp := none }

end Sys2Proof.Machine
end

