-- ==== Sys2Proof/Machine/Flags.lean ====
section
/-! DEFINITION. The block holds no flag (spec/10_state.md R23). Its only condition indication is the decoder's status
port: the status codes (R71) and what a result drives on the five decoder outputs (R27, R30). -/

namespace Sys2Proof.Machine

/-- The status codes on `dec_status` (R71). -/
def Status.code : Status → BitVec 2
  | .ok => 0
  | .empty => 1
  | .truncated => 2

/-- The status a code stands for; 3 is no status of this block (R71). -/
def Status.ofCode (c : BitVec 2) : Option Status :=
  if c = 0 then some .ok
  else if c = 1 then some .empty
  else if c = 2 then some .truncated
  else none

/-- What a result drives on the decoder's outputs; outputs it does not use are 0 (R30, R83). -/
def DecOut.ofResult : DecResult → DecOut
  | .ok value consumed => ⟨Status.ok.code, value, BitVec.ofNat 4 consumed, 0, 0⟩
  | .empty => ⟨Status.empty.code, 0, 0, 0, 0⟩
  | .truncated needed available =>
    ⟨Status.truncated.code, 0, 0, BitVec.ofNat 4 needed, BitVec.ofNat 4 available⟩

end Sys2Proof.Machine
end

