-- ==== Sys2Proof/Machine/Operands.lean ====
section
/-! DEFINITION. Operands: slices, the order bit, the effective length, and the assembly and rendering of payloads
(spec/00_scope.md R13 to R15, 30_encoding.md R66, R70, 40_decode.md R81, R82, 41_encode.md R102). -/

namespace Sys2Proof.Machine

/-- `v[lo+7 : lo]`, the byte of a value whose lowest bit is bit `lo` (R13). -/
def byteAt (v : Value) (lo : Nat) : Byte := v.extractLsb' lo 8

/-- `zext_64` of a byte (R15). -/
def zext64 (b : Byte) : Value := b.setWidth 64

/-- The order bit: 0 = LittleEndian, 1 = BigEndian (R70). -/
def orderBit : ByteOrder → BitVec 1
  | .littleEndian => 0
  | .bigEndian => 1

/-- The byte order an order bit selects (R70). -/
def orderOfBit (b : BitVec 1) : ByteOrder := if b = 0 then .littleEndian else .bigEndian

/-- The effective length: `n := (dec_len >= 9) ? 9 : dec_len` (R81). -/
def effLen (len : Count) : Nat := if len.toNat ≥ 9 then 9 else len.toNat

/-- How far payload byte `i` of `w` is shifted: bit `8i` in LittleEndian, bit `8(w-1-i)` in BigEndian (R66). -/
def payloadShift (o : ByteOrder) (w i : Nat) : Nat :=
  match o with
  | .littleEndian => 8 * i
  | .bigEndian => 8 * (w - 1 - i)

/-- The OR of the payload bytes from index `i` on, each shifted to its place in a payload of width `w` (R82). -/
def assembleFrom (o : ByteOrder) (w : Nat) : Nat → List Byte → Value
  | _, [] => 0
  | i, b :: bs => (zext64 b <<< payloadShift o w i) ||| assembleFrom o w (i + 1) bs

/-- `Assemble(p, w, order)` with `w` the number of payload bytes (R82). -/
def assemble (o : ByteOrder) (p : List Byte) : Value := assembleFrom o p.length 0 p

/-- `Render(v, w, order)`: payload byte `i` is the value's byte at its place (R102). -/
def render (o : ByteOrder) (v : Value) (w : Nat) : List Byte :=
  (List.range w).map fun i => byteAt v (payloadShift o w i)

/-- Nine lanes from a byte sequence: byte `k` on lane `k`, and 0x00 on the lanes after it (R75). -/
def lanesOfBytes (l : List Byte) : Lanes :=
  #v[l.getD 0 0, l.getD 1 0, l.getD 2 0, l.getD 3 0, l.getD 4 0, l.getD 5 0, l.getD 6 0, l.getD 7 0, l.getD 8 0]

/-- Nine lanes from the flat 72-bit bus: lane `k` is bits `[8k+7:8k]` (R14). -/
def lanesOfBus (bus : BitVec 72) : Lanes :=
  #v[bus.extractLsb' 0 8, bus.extractLsb' 8 8, bus.extractLsb' 16 8, bus.extractLsb' 24 8, bus.extractLsb' 32 8,
     bus.extractLsb' 40 8, bus.extractLsb' 48 8, bus.extractLsb' 56 8, bus.extractLsb' 64 8]

/-- The flat 72-bit bus of nine lanes (R14). -/
def busOfLanes (b : Lanes) : BitVec 72 :=
  b[8] ++ b[7] ++ b[6] ++ b[5] ++ b[4] ++ b[3] ++ b[2] ++ b[1] ++ b[0]

/-- Every input bit of the decoder's request is driven and known (R28). -/
abbrev State.DecKnown (s : State) : Prop := s.decUnknown = DecIn.zeros

/-- Every input bit of the encoder's request is driven and known (R28). -/
abbrev State.EncKnown (s : State) : Prop := s.encUnknown = EncIn.zeros

end Sys2Proof.Machine
end

