-- ==== Sys2Proof/Machine/SizeClass.lean ====
section
/-! DEFINITION. The size-class table, the block's only constant table (spec/30_encoding.md R60 to R64, spec/00_scope.md R11). -/

namespace Sys2Proof

/-- `TINY_MAX` (R11). -/
def tinyMax : Nat := 252

/-- `SMALL_MAX` (R11); kept at 4095 on purpose (90_conflicts.md C3). -/
def smallMax : Nat := 4095

/-- `MEDIUM_MAX` (R11). -/
def mediumMax : Nat := 4294967295

/-- `Width(c)`, the payload width in bytes (R61). -/
def SizeClass.width : SizeClass → Nat
  | .tiny => 0
  | .small => 2
  | .medium => 4
  | .large => 8

/-- The encoded length `1 + w` (R60). -/
def SizeClass.formLength (c : SizeClass) : Nat := 1 + c.width

/-- `Class(v)`: the one class whose range holds the value (R62, R63). -/
def classOfValue (v : Value) : SizeClass :=
  if v.toNat ≤ tinyMax then .tiny
  else if v.toNat ≤ smallMax then .small
  else if v.toNat ≤ mediumMax then .medium
  else .large

/-- `ClassOfPrefix(p)` (R64). -/
def classOfPrefix (p : Byte) : SizeClass :=
  if p.toNat ≤ 252 then .tiny
  else if p.toNat = 253 then .small
  else if p.toNat = 254 then .medium
  else .large

/-- The prefix byte of a value's form: the value itself when Tiny, else the class's sentinel (R100). -/
def prefixOfValue (v : Value) : Byte :=
  match classOfValue v with
  | .tiny => v.extractLsb' 0 8
  | .small => 0xFD
  | .medium => 0xFE
  | .large => 0xFF

/-- The size class a wire prefix selects; an operation of the request selector is no wire prefix (R64, opcode_table.json). -/
def Instr.formClass : Instr → Option SizeClass
  | .decodeLE => none
  | .decodeBE => none
  | .encodeLE => none
  | .encodeBE => none
  | .prefixTiny00 _ => some .tiny
  | .prefixTiny80 _ => some .tiny
  | .prefixTinyC0 _ => some .tiny
  | .prefixTinyE0 _ => some .tiny
  | .prefixTinyF0 _ => some .tiny
  | .prefixTinyF8 _ => some .tiny
  | .prefixTinyFC => some .tiny
  | .prefixSmall => some .small
  | .prefixMedium => some .medium
  | .prefixLarge => some .large

end Sys2Proof
end

