-- ==== Sys2Proof/Machine/Ops.lean ====
section
/-! DEFINITION. The named operations: byte accesses to the lanes (spec/00_scope.md R15), ending a decode with a success or
an error (R15, R123), the decode and encode functions (R83, R100), the output ports they drive at every time (R32), and
serving a request with them. There is no trap to enter or return from (R129, R130): an error is the response of its
request. -/

namespace Sys2Proof.Machine

/-- What running an instruction gives. -/
abbrev Result := Host.Outcome State Fault Refusal

/-- `MemRead(k, 1)`: the byte on lane `k`; there is no lane above 8 (R15, R40). -/
def readLane (b : Lanes) (k : Nat) : Option Byte := b[k]?

/-- `MemWrite(k, 1, x)`: lane `k` is driven with `x`; there is no lane above 8 (R15, R40). -/
def writeLane (b : Lanes) (k : Nat) (x : Byte) : Option Lanes :=
  if h : k < 9 then some (b.set k x h) else none

/-- `MemRead(k + i, 1)` for each of `count` lanes in turn. -/
def readLanes (b : Lanes) : (k count : Nat) → Option (List Byte)
  | _, 0 => some []
  | k, count + 1 =>
    match readLane b k, readLanes b (k + 1) count with
    | some x, some xs => some (x :: xs)
    | _, _ => none

/-- `MemWrite(k + i, 1, x_i)` for each byte in turn. -/
def writeLanes : (b : Lanes) → (k : Nat) → List Byte → Option Lanes
  | b, _, [] => some b
  | b, k, x :: xs =>
    match writeLane b k x with
    | some b' => writeLanes b' (k + 1) xs
    | none => none

/-- `return Ok(value, consumed)` (R15): what it drives (R30). -/
def returnOk (value : Value) (consumed : Nat) : DecOut := DecOut.ofResult (.ok value consumed)

/-- `raise Empty()`: a returned result, not a trap (R15, R121, R123). -/
def raiseEmpty : DecOut := DecOut.ofResult .empty

/-- `raise Truncated(needed, available)`: a returned result, not a trap (R15, R122, R123). -/
def raiseTruncated (needed available : Nat) : DecOut := DecOut.ofResult (.truncated needed available)

/-- The decode function from its prefix on: lane 0 holds `p` and at least one byte is valid (R83). No answer only if a lane
were read that does not exist. -/
def decodeForm (o : ByteOrder) (p : Byte) (d : DecIn) : Option DecOut :=
  if effLen d.len < (classOfPrefix p).formLength then
    some (raiseTruncated (classOfPrefix p).formLength (effLen d.len))
  else if (classOfPrefix p).width = 0 then some (returnOk (zext64 p) 1)
  else
    match readLanes d.buf 1 (classOfPrefix p).width with
    | some payload => some (returnOk (assemble o payload) (classOfPrefix p).formLength)
    | none => none

/-- The decode function `Decode(dec_buf, dec_len, order)` (R83). -/
def decodeFunction (o : ByteOrder) (d : DecIn) : Option DecOut :=
  if effLen d.len = 0 then some raiseEmpty
  else
    match readLane d.buf 0 with
    | some p => decodeForm o p d
    | none => none

/-- The decode function where lane 0 carries the wire prefix `p`, in the order on `dec_order` (R64, R83). With no valid byte
there is no byte 0 and the response is EMPTY (R125; assumption 6). -/
def prefixFunction (p : Byte) (d : DecIn) : Option DecOut :=
  if effLen d.len = 0 then some raiseEmpty else decodeForm (orderOfBit d.order) p d

/-- The encoded form of a value, `encode(value, order) -> bytes`: the prefix, then the payload rendered in exactly the
class's width (R100). -/
def encodedForm (o : ByteOrder) (v : Value) : List Byte :=
  prefixOfValue v :: render o v (classOfValue v).width

/-- All nine bytes the encoder drives: the encoded form, then 0x00 up to lane 8 (R31, R100). -/
def encodedLanes (o : ByteOrder) (v : Value) : List Byte :=
  encodedForm o v ++ List.replicate (8 - (classOfValue v).width) 0x00

/-- The encode function `Encode(enc_value, order)`: lane after lane is written, all nine of them (R100). -/
def encodeFunction (o : ByteOrder) (v : Value) : Option EncOut :=
  match writeLanes Lanes.zeros 0 (encodedLanes o v) with
  | some buf => some ⟨buf, BitVec.ofNat 4 (classOfValue v).formLength⟩
  | none => none

/-- The decoder's output ports: at every time the function of the decoder's present inputs, and no value while an input bit
is unknown (R28, R32, R33, R140). This is `decode_step : DecReq -> DecResp` (R34). -/
def State.decOut (s : State) : Option DecOut :=
  if s.DecKnown then decodeFunction (orderOfBit s.decIn.order) s.decIn else none

/-- The encoder's output ports: at every time the function of the encoder's present inputs, and no value while an input bit
is unknown (R28, R32, R33, R140). This is `encode_step : EncReq -> EncResp` (R34). -/
def State.encOut (s : State) : Option EncOut :=
  if s.EncKnown then encodeFunction (orderOfBit s.encIn.order) s.encIn.value else none

/-- A decode request is served with what the decode function gives for its inputs, if all its input bits are known (R28). -/
def serveDecode (f : DecIn → Option DecOut) (s : State) : Result :=
  if s.DecKnown then
    match f s.decIn with
    | some r => .next (s.setDecResp r)
    | none => .fault .noSuchLane
  else .refused .unknownInput

/-- An encode request is served with what the encode function gives for its value, if all its input bits are known (R28). -/
def serveEncode (f : Value → Option EncOut) (s : State) : Result :=
  if s.EncKnown then
    match f s.encIn.value with
    | some r => .next (s.setEncResp r)
    | none => .fault .noSuchLane
  else .refused .unknownInput

/-- The request DECODE in a byte order (R84, R85). -/
def decodeRequest (o : ByteOrder) (s : State) : Result := serveDecode (decodeFunction o) s

/-- The request whose lane 0 is a wire prefix (R64, R83; assumption 6). -/
def prefixRequest (p : Byte) (s : State) : Result := serveDecode (prefixFunction p) s

/-- The request ENCODE in a byte order (R103, R104). -/
def encodeRequest (o : ByteOrder) (s : State) : Result := serveEncode (encodeFunction o) s

end Sys2Proof.Machine
end

