-- ==== Sys2Proof/Machine/DecodeOps.lean ====
section
/-! DEFINITION. The meanings of DECODE.LE and DECODE.BE (spec/40_decode.md R84, R85). -/

namespace Sys2Proof.Machine

/-- DECODE.LE: `Decode(dec_buf, dec_len, 0)` (R84). -/
def execDecodeLE (s : State) : Result := decodeRequest .littleEndian s

/-- DECODE.BE: `Decode(dec_buf, dec_len, 1)` (R85). -/
def execDecodeBE (s : State) : Result := decodeRequest .bigEndian s

end Sys2Proof.Machine
end

