-- ==== Sys2Proof/Machine/EncodeOps.lean ====
section
/-! DEFINITION. The meanings of ENCODE.LE and ENCODE.BE (spec/41_encode.md R103, R104). -/

namespace Sys2Proof.Machine

/-- ENCODE.LE: `Encode(enc_value, 0)` (R103). -/
def execEncodeLE (s : State) : Result := encodeRequest .littleEndian s

/-- ENCODE.BE: `Encode(enc_value, 1)` (R104). -/
def execEncodeBE (s : State) : Result := encodeRequest .bigEndian s

end Sys2Proof.Machine
end

