-- ==== Sys2Proof/WellFormed.lean ====
section
/-! DEFINITION. Which terms are well formed. Every `Instr` is: no selector value and no prefix value is reserved or
illegal (spec/30_encoding.md R68, R69), and the widths of the Tiny rows' arguments are the table's. An encoded form is
checked: its head is a wire prefix and its payload has the width the prefix selects (R65). -/

namespace Sys2Proof

/-- The head of a form is a wire prefix, not an operation of the request selector (R65). -/
def EncodedForm.headIsWire (f : EncodedForm) : Bool := f.head.formClass.isSome

/-- "An encoded form is byte 0 followed by exactly `Width(ClassOfPrefix(byte 0))` payload bytes" (R65). -/
def EncodedForm.payloadFits (f : EncodedForm) : Bool :=
  match f.head.formClass with
  | some c => f.payload.length == c.width
  | none => true

/-- The well-formed encoded forms (R65). -/
def EncodedForm.wellFormed (f : EncodedForm) : Bool := f.headIsWire && f.payloadFits

end Sys2Proof
end

