-- ==== Sys2Proof/Decode.lean ====
section
/-! DEFINITION. The decoders of the two code-word formats, the encoder, the reading of encoded forms off a byte sequence,
and the opcode table as rows (spec/30_encoding.md R64, R65, R69, spec/opcode_table.json). -/

namespace Sys2Proof

/-- The operation a request selector names: all four values are defined (R69). -/
def decodeSelector (op : BitVec 2) : Instr :=
  if op = 0b00#2 then .decodeLE
  else if op = 0b01#2 then .decodeBE
  else if op = 0b10#2 then .encodeLE
  else .encodeBE

/-- The wire prefix a byte is: all 256 values are defined (R64); masks and patterns as in opcode_table.json. -/
def decodePrefix (p : Byte) : Instr :=
  if p &&& 0x80 = 0x00 then .prefixTiny00 (p.extractLsb' 0 7)
  else if p &&& 0xC0 = 0x80 then .prefixTiny80 (p.extractLsb' 0 6)
  else if p &&& 0xE0 = 0xC0 then .prefixTinyC0 (p.extractLsb' 0 5)
  else if p &&& 0xF0 = 0xE0 then .prefixTinyE0 (p.extractLsb' 0 4)
  else if p &&& 0xF8 = 0xF0 then .prefixTinyF0 (p.extractLsb' 0 3)
  else if p &&& 0xFC = 0xF8 then .prefixTinyF8 (p.extractLsb' 0 2)
  else if p = 0xFC then .prefixTinyFC
  else if p = 0xFD then .prefixSmall
  else if p = 0xFE then .prefixMedium
  else .prefixLarge

/-- The decoder of the opcode table, total on both formats: nothing is reserved (R68, R69). -/
def decodeWord : CodeWord → Instr
  | .reqSelect op => decodeSelector op
  | .wirePrefix p => decodePrefix p

/-- The byte of a wire prefix, by the table's bit patterns; 0 for an operation, which has none. -/
def prefixByteOf : Instr → Byte
  | .decodeLE => 0
  | .decodeBE => 0
  | .encodeLE => 0
  | .encodeBE => 0
  | .prefixTiny00 v => 0b0#1 ++ v
  | .prefixTiny80 v => 0b10#2 ++ v
  | .prefixTinyC0 v => 0b110#3 ++ v
  | .prefixTinyE0 v => 0b1110#4 ++ v
  | .prefixTinyF0 v => 0b11110#5 ++ v
  | .prefixTinyF8 v => 0b111110#6 ++ v
  | .prefixTinyFC => 0b11111100#8
  | .prefixSmall => 0b11111101#8
  | .prefixMedium => 0b11111110#8
  | .prefixLarge => 0b11111111#8

/-- The encoder of the opcode table: the code word of an instruction (R64, R69). -/
def encode : Instr → CodeWord
  | .decodeLE => .reqSelect 0b00#2
  | .decodeBE => .reqSelect 0b01#2
  | .encodeLE => .reqSelect 0b10#2
  | .encodeBE => .reqSelect 0b11#2
  | .prefixTiny00 v => .wirePrefix (prefixByteOf (.prefixTiny00 v))
  | .prefixTiny80 v => .wirePrefix (prefixByteOf (.prefixTiny80 v))
  | .prefixTinyC0 v => .wirePrefix (prefixByteOf (.prefixTinyC0 v))
  | .prefixTinyE0 v => .wirePrefix (prefixByteOf (.prefixTinyE0 v))
  | .prefixTinyF0 v => .wirePrefix (prefixByteOf (.prefixTinyF0 v))
  | .prefixTinyF8 v => .wirePrefix (prefixByteOf (.prefixTinyF8 v))
  | .prefixTinyFC => .wirePrefix (prefixByteOf .prefixTinyFC)
  | .prefixSmall => .wirePrefix (prefixByteOf .prefixSmall)
  | .prefixMedium => .wirePrefix (prefixByteOf .prefixMedium)
  | .prefixLarge => .wirePrefix (prefixByteOf .prefixLarge)

/-- Read one encoded form off the start of a byte sequence of any length; its length is told by byte 0 alone (R65).
The two ways this fails are named as the error taxonomy names them (R121, R122). -/
def splitForm : List Byte → SplitResult
  | [] => .error .empty
  | p :: bytes =>
    if bytes.length < (classOfPrefix p).width then
      .error (.truncated (classOfPrefix p).formLength (1 + bytes.length))
    else
      .form ⟨decodePrefix p, bytes.take (classOfPrefix p).width⟩ (bytes.drop (classOfPrefix p).width)

/-- The bytes of an encoded form: the prefix, then the payload (R65). -/
def EncodedForm.bytes (f : EncodedForm) : List Byte := prefixByteOf f.head :: f.payload

/-- The two formats of the opcode table. -/
inductive WordFormat where
  | reqSelect
  | wirePrefix
deriving DecidableEq, Repr

/-- One row of spec/opcode_table.json: a word `w` is the row's when `w &&& mask = pattern`. -/
structure OpcodeRow where
  mnemonic : String
  format   : WordFormat
  mask     : Nat
  pattern  : Nat
deriving DecidableEq, Repr

/-- spec/opcode_table.json, row by row. -/
def opcodeTable : List OpcodeRow :=
  [ ⟨"DECODE.LE", .reqSelect, 0x3, 0x0⟩,
    ⟨"DECODE.BE", .reqSelect, 0x3, 0x1⟩,
    ⟨"ENCODE.LE", .reqSelect, 0x3, 0x2⟩,
    ⟨"ENCODE.BE", .reqSelect, 0x3, 0x3⟩,
    ⟨"PREFIX.TINY.00-7F", .wirePrefix, 0x80, 0x00⟩,
    ⟨"PREFIX.TINY.80-BF", .wirePrefix, 0xC0, 0x80⟩,
    ⟨"PREFIX.TINY.C0-DF", .wirePrefix, 0xE0, 0xC0⟩,
    ⟨"PREFIX.TINY.E0-EF", .wirePrefix, 0xF0, 0xE0⟩,
    ⟨"PREFIX.TINY.F0-F7", .wirePrefix, 0xF8, 0xF0⟩,
    ⟨"PREFIX.TINY.F8-FB", .wirePrefix, 0xFC, 0xF8⟩,
    ⟨"PREFIX.TINY.FC", .wirePrefix, 0xFF, 0xFC⟩,
    ⟨"PREFIX.SMALL", .wirePrefix, 0xFF, 0xFD⟩,
    ⟨"PREFIX.MEDIUM", .wirePrefix, 0xFF, 0xFE⟩,
    ⟨"PREFIX.LARGE", .wirePrefix, 0xFF, 0xFF⟩ ]

/-- The row an instruction is a word of. -/
def Instr.mnemonic : Instr → String
  | .decodeLE => "DECODE.LE"
  | .decodeBE => "DECODE.BE"
  | .encodeLE => "ENCODE.LE"
  | .encodeBE => "ENCODE.BE"
  | .prefixTiny00 _ => "PREFIX.TINY.00-7F"
  | .prefixTiny80 _ => "PREFIX.TINY.80-BF"
  | .prefixTinyC0 _ => "PREFIX.TINY.C0-DF"
  | .prefixTinyE0 _ => "PREFIX.TINY.E0-EF"
  | .prefixTinyF0 _ => "PREFIX.TINY.F0-F7"
  | .prefixTinyF8 _ => "PREFIX.TINY.F8-FB"
  | .prefixTinyFC => "PREFIX.TINY.FC"
  | .prefixSmall => "PREFIX.SMALL"
  | .prefixMedium => "PREFIX.MEDIUM"
  | .prefixLarge => "PREFIX.LARGE"

/-- Does a code word match a row? -/
def OpcodeRow.holds (r : OpcodeRow) : CodeWord → Bool
  | .reqSelect op => r.format == .reqSelect && (op.toNat &&& r.mask) == r.pattern
  | .wirePrefix p => r.format == .wirePrefix && (p.toNat &&& r.mask) == r.pattern

/-- The format a table word given as `nbits` bits and a number is read in: DESIGN CHOICE, assumption 8.
A row of format REQ_SELECT has 2 bits, which whole bytes make 8; a row of format WIRE_PREFIX has 8, and more where
payload bytes follow. So a number below 4 in at most 8 bits is read as a selector, any other as byte 0 of a form. -/
def tableWord (nbits w : Nat) : Option CodeWord :=
  if nbits ≤ 8 ∧ w < 4 then some (.reqSelect (BitVec.ofNat 2 w))
  else if nbits < 8 then none
  else some (.wirePrefix (BitVec.ofNat 8 w))

/-- The instruction the decoder reads from a word numbered as spec/opcode_table.json numbers it. -/
def decodeTableWord (nbits w : Nat) : Option Instr := (tableWord nbits w).map decodeWord

end Sys2Proof
end

