-- ==== Sys2Proof/Machine/WirePrefix.lean ====
section
/-! DEFINITION. The meanings of the wire prefixes: the decoder's response to a request whose lane 0 is that byte
(spec/30_encoding.md R64, R65, spec/40_decode.md R83; assumption 6). -/

namespace Sys2Proof.Machine

/-- PREFIX.TINY.00-7F: the value is the byte itself, 1 byte consumed (R64, R83). -/
def execPrefixTiny00 (v : BitVec 7) (s : State) : Result := prefixRequest (prefixByteOf (.prefixTiny00 v)) s

/-- PREFIX.TINY.80-BF: the value is the byte itself, 1 byte consumed (R64, R83). -/
def execPrefixTiny80 (v : BitVec 6) (s : State) : Result := prefixRequest (prefixByteOf (.prefixTiny80 v)) s

/-- PREFIX.TINY.C0-DF: the value is the byte itself, 1 byte consumed (R64, R83). -/
def execPrefixTinyC0 (v : BitVec 5) (s : State) : Result := prefixRequest (prefixByteOf (.prefixTinyC0 v)) s

/-- PREFIX.TINY.E0-EF: the value is the byte itself, 1 byte consumed (R64, R83). -/
def execPrefixTinyE0 (v : BitVec 4) (s : State) : Result := prefixRequest (prefixByteOf (.prefixTinyE0 v)) s

/-- PREFIX.TINY.F0-F7: the value is the byte itself, 1 byte consumed (R64, R83). -/
def execPrefixTinyF0 (v : BitVec 3) (s : State) : Result := prefixRequest (prefixByteOf (.prefixTinyF0 v)) s

/-- PREFIX.TINY.F8-FB: the value is the byte itself, 1 byte consumed (R64, R83). -/
def execPrefixTinyF8 (v : BitVec 2) (s : State) : Result := prefixRequest (prefixByteOf (.prefixTinyF8 v)) s

/-- PREFIX.TINY.FC: the value is 252, 1 byte consumed (R64, R83). -/
def execPrefixTinyFC (s : State) : Result := prefixRequest (prefixByteOf .prefixTinyFC) s

/-- PREFIX.SMALL: a 2-byte payload on lanes 1 and 2 (R64, R83). -/
def execPrefixSmall (s : State) : Result := prefixRequest (prefixByteOf .prefixSmall) s

/-- PREFIX.MEDIUM: a 4-byte payload on lanes 1 to 4 (R64, R83). -/
def execPrefixMedium (s : State) : Result := prefixRequest (prefixByteOf .prefixMedium) s

/-- PREFIX.LARGE: an 8-byte payload on lanes 1 to 8 (R64, R83). -/
def execPrefixLarge (s : State) : Result := prefixRequest (prefixByteOf .prefixLarge) s

end Sys2Proof.Machine
end

