-- ==== Sys2Proof/Machine/Dispatch.lean ====
section
/-! DEFINITION. One arm per row of spec/opcode_table.json. -/

namespace Sys2Proof.Machine

def exec (i : Instr) (s : State) : Host.Outcome State Fault Refusal :=
  match i with
  | .decodeLE => Sys2Proof.Machine.execDecodeLE s
  | .decodeBE => Sys2Proof.Machine.execDecodeBE s
  | .encodeLE => Sys2Proof.Machine.execEncodeLE s
  | .encodeBE => Sys2Proof.Machine.execEncodeBE s
  | .prefixTiny00 v => Sys2Proof.Machine.execPrefixTiny00 v s
  | .prefixTiny80 v => Sys2Proof.Machine.execPrefixTiny80 v s
  | .prefixTinyC0 v => Sys2Proof.Machine.execPrefixTinyC0 v s
  | .prefixTinyE0 v => Sys2Proof.Machine.execPrefixTinyE0 v s
  | .prefixTinyF0 v => Sys2Proof.Machine.execPrefixTinyF0 v s
  | .prefixTinyF8 v => Sys2Proof.Machine.execPrefixTinyF8 v s
  | .prefixTinyFC => Sys2Proof.Machine.execPrefixTinyFC s
  | .prefixSmall => Sys2Proof.Machine.execPrefixSmall s
  | .prefixMedium => Sys2Proof.Machine.execPrefixMedium s
  | .prefixLarge => Sys2Proof.Machine.execPrefixLarge s

end Sys2Proof.Machine
end

