-- ==== Sys2Proof/Machine/Fetch.lean ====
section
/-! DEFINITION. How a request is read off the ports and how one is placed there (spec/30_encoding.md R69; assumption 7).
The block fetches no instruction from memory (spec/20_memory.md R55). -/

namespace Sys2Proof.Machine

/-- The unit bit `op[1]` (R69). -/
def unitBit : Block → BitVec 1
  | .decoder => 0
  | .encoder => 1

/-- The block the unit bit names (R69). -/
def blockOfBit (b : BitVec 1) : Block := if b = 0 then .decoder else .encoder

/-- The order port of the block that receives the request: `op[0]` (R69). -/
def State.orderPort (s : State) : BitVec 1 :=
  match s.block with
  | .decoder => s.decIn.order
  | .encoder => s.encIn.order

/-- The request selector `op[1:0]` (R69). -/
def State.selector (s : State) : BitVec 2 := unitBit s.block ++ s.orderPort

/-- The operation the ports request (R69). -/
def fetchOperation (s : State) : Instr := decodeSelector s.selector

/-- The wire prefix the decoder reads: lane 0, where at least one byte is valid (R41, R64). -/
def fetchPrefix (s : State) : Option Instr :=
  if effLen s.decIn.len = 0 then none else some (decodePrefix s.decIn.buf[0])

/-- Present the operation a selector names: the unit, and the order port of that unit, known; nothing else changes. -/
def placeSelector (op : BitVec 2) (s : State) : State :=
  match blockOfBit (op.extractLsb' 1 1) with
  | .decoder =>
    (s.setBlock .decoder).setDecIn { s.decIn with order := op.extractLsb' 0 1 } { s.decUnknown with order := 0 }
  | .encoder =>
    (s.setBlock .encoder).setEncIn { s.encIn with order := op.extractLsb' 0 1 } { s.encUnknown with order := 0 }

/-- Present bytes to the decoder: byte `k` of the number on lane `k`, nine valid bytes, all known; `dec_order` stays. -/
def placeForm (w : Nat) (s : State) : State :=
  (s.setBlock .decoder).setDecIn { s.decIn with buf := lanesOfBus (BitVec.ofNat 72 w), len := 9 }
    { s.decUnknown with buf := Lanes.zeros, len := 0 }

/-- Present the instruction of a table word of `nbits` bits, the bits above them 0. A word of neither format changes
nothing. -/
def placeWord (s : State) (nbits w : Nat) : State :=
  match tableWord nbits w with
  | some (.reqSelect op) => placeSelector op s
  | some (.wirePrefix _) => placeForm (w % 2 ^ nbits) s
  | none => s

end Sys2Proof.Machine
end

