-- ==== Sys2Proof/Machine/Step.lean ====
section
/-! DEFINITION. One step serves the request on the ports and returns its response (spec/10_state.md R34). -/

namespace Sys2Proof.Machine

/-- One request, one response: the operation the selector names runs on the ports as they stand (R18, R34, R69). -/
def step (s : State) : Host.Outcome State Fault Refusal := exec (fetchOperation s) s

/-- The state with a table word's instruction presented, so that the next step runs it (assumptions 7, 8). -/
def State.withFetchWord (s : State) (nbits w : Nat) : State := placeWord s nbits w

end Sys2Proof.Machine
end

