-- ==== Sys2Proof/Machine/Contract.lean ====
section
/-! DEFINITION. The source's contract `decode(bytes, order)` on byte sequences of any length, and canonical forms
(spec/40_decode.md R80, spec/30_encoding.md R65, R67). The machine is not defined by it: that the ports answer as it says
is a statement (spec/20_memory.md R42). -/

namespace Sys2Proof.Machine

/-- The value an encoded form holds: the prefix itself when it has no payload, else the assembled payload (R83). -/
def formValue (o : ByteOrder) (f : EncodedForm) : Value :=
  if f.payload = [] then zext64 (prefixByteOf f.head) else assemble o f.payload

/-- `decode(bytes, order)`: the form at the start of the bytes, whatever follows it (R42, R80, R83). -/
def contractDecode (o : ByteOrder) (bytes : List Byte) : DecResult :=
  match splitForm bytes with
  | .form f _ => .ok (formValue o f) f.bytes.length
  | .error .empty => .empty
  | .error (.truncated needed available) => .truncated needed available

/-- A form is canonical when its prefix class is `Class` of the value it holds (R67). -/
def canonicalForm (o : ByteOrder) (f : EncodedForm) : Bool :=
  f.head.formClass == some (classOfValue (formValue o f))

end Sys2Proof.Machine
end

