-- ==== Sys2Proof/Machine/Embedding.lean ====
section
/-! DEFINITION. The embedding's side: how it presents requests, and the host's pseudo-operations, which are no block
operations (spec/10_state.md R18, R22, 30_encoding.md R75, 70_reset_and_hazards.md R147; assumption 11). -/

namespace Sys2Proof.Machine

/-- What the host keeps: the blocks it drives, its byte buffer `B` and its offset (R22, R75). -/
structure Embedding where
  blocks : State
  buffer : List Byte
  offset : Nat
deriving DecidableEq, Repr

/-- What a host action gives. -/
abbrev HostResult := Host.Outcome Embedding Fault Refusal

/-- A step of the blocks, as a host action continues with it. -/
def afterStep (s : State) (k : State → HostResult) : HostResult :=
  match step s with
  | .next t => k t
  | .fault r => .fault r
  | .refused r => .refused r

/-- Present a decode request for the bytes of a host buffer from an offset on: the first nine of them on the lanes, 0x00
after them, and their number, at most 9, on `dec_len` (R42, R75). -/
def State.presentDecode (s : State) (o : ByteOrder) (bytes : List Byte) (off : Nat) : State :=
  (s.setBlock .decoder).setDecIn
    ⟨lanesOfBytes (bytes.drop off), BitVec.ofNat 4 (min (bytes.length - off) 9), orderBit o⟩ DecIn.zeros

/-- Present an encode request for a value (R29, R69). -/
def State.presentEncode (s : State) (o : ByteOrder) (v : Value) : State :=
  (s.setBlock .encoder).setEncIn ⟨v, orderBit o⟩ EncIn.zeros

/-- The encoded form on the encoder's outputs: lanes 0 to `enc_len - 1` (R31). -/
def EncOut.form (e : EncOut) : List Byte := e.buf.toList.take e.len.toNat

/-- The encoded form an encode request returned; no byte where none was served. -/
def State.encForm (s : State) : List Byte :=
  match s.encResp with
  | some e => e.form
  | none => []

/-- `DECODE.<o> B @ off` (R75). -/
def hostDecode (o : ByteOrder) (e : Embedding) : HostResult :=
  afterStep (e.blocks.presentDecode o e.buffer e.offset) fun t => .next { e with blocks := t }

/-- `ADVANCE off`: the offset moves by `dec_consumed` of the last decode, only when its status was OK (R75); where no decode
was served it stays. A status of 3 is refused: no block of this spec drives it (R71). -/
def advance (e : Embedding) : HostResult :=
  match e.blocks.decResp with
  | none => .next e
  | some d =>
    match Status.ofCode d.status with
    | some .ok => .next { e with offset := e.offset + d.consumed.toNat }
    | some .empty => .next e
    | some .truncated => .next e
    | none => .refused .statusNotDriven

/-- `EMIT.<o> v -> B`: encode, then append the encoded form to the host's buffer (R75). -/
def emit (o : ByteOrder) (v : Value) (e : Embedding) : HostResult :=
  afterStep (e.blocks.presentEncode o v) fun t => .next { e with blocks := t, buffer := e.buffer ++ t.encForm }

/-- `ROUNDTRIP.<o> v`: encode, then decode lanes 0 to `enc_len - 1` with `dec_len` = `enc_len` (R75). -/
def roundTrip (o : ByteOrder) (v : Value) (e : Embedding) : HostResult :=
  afterStep (e.blocks.presentEncode o v) fun t =>
    afterStep (t.presentDecode o t.encForm 0) fun u => .next { e with blocks := u }

/-- The check of an embedding that accepts only canonical forms: the length of `ENCODE.<o>` of the decoded value against
`dec_consumed` of that decode, where one was served (R147). After EMPTY or TRUNCATED there is no decoded value and R147 says
nothing of the check: it then compares with `dec_value` 0 and `dec_consumed` 0 and does not pass (DESIGN CHOICE, unsafe,
assumption 11). -/
def canonicalCheck (o : ByteOrder) (s : State) : Option Bool :=
  match s.decResp with
  | some d =>
    match step (s.presentEncode o d.value) with
    | .next t => t.encResp.map fun e => e.len == d.consumed
    | _ => none
  | none => none

end Sys2Proof.Machine
end

