-- ==== Sys2Proof/Safety.lean ====
section
/-! DEFINITION. What counts as a safe run, and the invariants of the responses, in the terms the claims use
(spec/10_state.md R27, R30, R31, spec/60_exceptions.md R120, R123). -/

namespace Sys2Proof.Machine

/-- The request's block has every input bit driven and known (R28). -/
abbrev State.Known (s : State) : Block → Prop
  | .decoder => s.DecKnown
  | .encoder => s.EncKnown

/-- The block an instruction is a request to: a wire prefix is read by the decoder (R64, R69). -/
def blockOf : Instr → Block
  | .encodeLE => .encoder
  | .encodeBE => .encoder
  | .decodeLE => .decoder
  | .decodeBE => .decoder
  | .prefixTiny00 _ => .decoder
  | .prefixTiny80 _ => .decoder
  | .prefixTinyC0 _ => .decoder
  | .prefixTinyE0 _ => .decoder
  | .prefixTinyF0 _ => .decoder
  | .prefixTinyF8 _ => .decoder
  | .prefixTinyFC => .decoder
  | .prefixSmall => .decoder
  | .prefixMedium => .decoder
  | .prefixLarge => .decoder

/-- The decode operation of a byte order (R3). -/
def decodeOf : ByteOrder → Instr
  | .littleEndian => .decodeLE
  | .bigEndian => .decodeBE

/-- The encode operation of a byte order (R3). -/
def encodeOf : ByteOrder → Instr
  | .littleEndian => .encodeLE
  | .bigEndian => .encodeBE

/-- A safe step does not fault: no request makes the block stop (R92, R123). -/
def State.Safe (s : State) : Prop := ∀ r, step s ≠ .fault r

/-- The decoder's outputs follow one of the three rows of R30's table: OK with a consumed count of a form, EMPTY, or
TRUNCATED with a needed length of a form and fewer, but some, bytes available. -/
abbrev DecOut.Legal (d : DecOut) : Prop :=
  (d.status = 0 ∧ d.consumed ∈ [1, 3, 5, 9] ∧ d.needed = 0 ∧ d.available = 0) ∨
  (d.status = 1 ∧ d.value = 0 ∧ d.consumed = 0 ∧ d.needed = 0 ∧ d.available = 0) ∨
  (d.status = 2 ∧ d.value = 0 ∧ d.consumed = 0 ∧ d.needed ∈ [3, 5, 9] ∧ 1 ≤ d.available.toNat ∧
    d.available.toNat < d.needed.toNat)

/-- The encoder's outputs hold one encoded form from lane 0 on, as long as its prefix says, and zero bytes after it
(R31, R65). -/
abbrev EncOut.Legal (e : EncOut) : Prop :=
  e.len.toNat = (classOfPrefix e.buf[0]).formLength ∧ ∀ k, (h : k < 9) → e.len.toNat ≤ k → e.buf[k] = 0

/-- The responses on record are legal. -/
abbrev State.ResponsesLegal (s : State) : Prop :=
  (∀ d, s.decResp = some d → d.Legal) ∧ (∀ e, s.encResp = some e → e.Legal)

/-- The values on the output ports, and the responses on record, are legal. -/
abbrev State.OutputsLegal (s : State) : Prop :=
  s.ResponsesLegal ∧ (∀ d, s.decOut = some d → d.Legal) ∧ (∀ e, s.encOut = some e → e.Legal)

/-- A response on record is what the output ports carry for the inputs that are on the ports now: none is left over from an
earlier request (R32, R142). -/
abbrev State.ResponsesCurrent (s : State) : Prop :=
  (∀ d, s.decResp = some d → s.decOut = some d) ∧ (∀ e, s.encResp = some e → s.encOut = some e)

end Sys2Proof.Machine
end

