-- ==== Sys2Proof/Certificates/Slice0/Obligations.lean ====
section
/-! DEFINITION. The statements for the provers, one per `def Obligations.<Name> : Prop`. Each docstring says which rule of
spec/ it formalises. -/

open Sys2Proof Sys2Proof.Machine

/-! ### The step and the code words -/

/-- R69: the selector's bits are the unit and the order port of the block that receives the request, and a step runs the
operation the selector names. The table, row by row. -/
def Obligations.StepRunsSelectedOperation : Prop :=
  ∀ s : State,
    (s.block = .decoder → s.decIn.order = 0 → s.selector = 0b00#2 ∧ step s = exec .decodeLE s) ∧
    (s.block = .decoder → s.decIn.order = 1 → s.selector = 0b01#2 ∧ step s = exec .decodeBE s) ∧
    (s.block = .encoder → s.encIn.order = 0 → s.selector = 0b10#2 ∧ step s = exec .encodeLE s) ∧
    (s.block = .encoder → s.encIn.order = 1 → s.selector = 0b11#2 ∧ step s = exec .encodeBE s)

/-- R64, R83: in a decode request with at least one valid byte the prefix read is the one on lane 0, and a step that serves it
runs that wire prefix (as an instruction: the model's reading, assumption 6). -/
def Obligations.StepRunsWirePrefixOnLaneZero : Prop :=
  ∀ s : State, s.block = .decoder → s.decIn.len ≠ 0 →
    fetchPrefix s = some (decodeWord (.wirePrefix s.decIn.buf[0])) ∧
    step s = exec (decodeWord (.wirePrefix s.decIn.buf[0])) s

/-- The model's interface (assumptions 7, 8): presenting a table word makes the next step run the instruction the decoder
reads from it, and leaves the ports of the other block and the response it returned as they were. -/
def Obligations.PresentedWordRunsNext : Prop :=
  ∀ (s : State) (nbits w : Nat) (i : Instr), decodeTableWord nbits w = some i →
    step (s.withFetchWord nbits w) = exec i (s.withFetchWord nbits w) ∧
    (blockOf i = .decoder → (s.withFetchWord nbits w).encIn = s.encIn ∧
      (s.withFetchWord nbits w).encOut = s.encOut ∧ (s.withFetchWord nbits w).encResp = s.encResp) ∧
    (blockOf i = .encoder → (s.withFetchWord nbits w).decIn = s.decIn ∧
      (s.withFetchWord nbits w).decOut = s.decOut ∧ (s.withFetchWord nbits w).decResp = s.decResp)

/-- 30_encoding.md, opening paragraph: each selector value and each prefix value matches exactly one row of the table, the
row of the instruction the decoder reads, and encoding that instruction gives the word back: no bit is dropped. -/
def Obligations.EveryCodeWordIsOneRow : Prop :=
  ∀ c : CodeWord,
    (opcodeTable.filter fun r => r.holds c).map (·.mnemonic) = [(decodeWord c).mnemonic] ∧
    encode (decodeWord c) = c

/-- R65: reading the bytes of a well-formed encoded form gives that form back whatever bytes follow it, and whatever is
read off a byte sequence is a well-formed form whose bytes, with the rest, are that sequence, of the length byte 0 tells. -/
def Obligations.FormBytesReadBack : Prop :=
  (∀ (f : EncodedForm) (rest : List Byte), f.wellFormed = true → splitForm (f.bytes ++ rest) = .form f rest) ∧
  (∀ (bytes rest : List Byte) (f : EncodedForm), splitForm bytes = .form f rest →
    f.wellFormed = true ∧ f.bytes ++ rest = bytes ∧ f.bytes.length ∈ [1, 3, 5, 9] ∧
    f.bytes.length = (classOfPrefix (bytes.headD 0)).formLength)

/-- Sanity: code words and bytes written out from the spec's encodings (R64, R65, R69) decode to the instructions they stand
for. The clauses on `decodeTableWord` rest on the model's numbering of table words besides: that the byte 0b10 is read as a
selector is the model's choice (assumption 8, DESIGN CHOICE), no rule of the spec. -/
def Obligations.WrittenOutWordsDecode : Prop :=
  decodeWord (.reqSelect 0b10#2) = .encodeLE ∧
  decodeWord (.wirePrefix 0b00000010#8) = .prefixTiny00 0b0000010#7 ∧
  decodeTableWord 8 0b10 = some .encodeLE ∧
  decodeTableWord 8 0b01111111 = some (.prefixTiny00 0b1111111#7) ∧
  decodeTableWord 8 0b10111110 = some (.prefixTiny80 0b111110#6) ∧
  decodeTableWord 8 0b11111101 = some .prefixSmall ∧
  splitForm [0xFD, 0xE8, 0x03, 0x07] = .form ⟨.prefixSmall, [0xE8, 0x03]⟩ [0x07] ∧
  splitForm [0xFE, 0x01] = .error (.truncated 5 2)

/-- R62, R63: the class of a value, range by range, and exactly one class for each value. -/
def Obligations.ClassOfValueByRange : Prop :=
  ∀ v : Value,
    (classOfValue v = .tiny ↔ v.toNat ≤ 252) ∧
    (classOfValue v = .small ↔ 253 ≤ v.toNat ∧ v.toNat ≤ 4095) ∧
    (classOfValue v = .medium ↔ 4096 ≤ v.toNat ∧ v.toNat ≤ 4294967295) ∧
    (classOfValue v = .large ↔ 4294967296 ≤ v.toNat)

/-- R64: the class a prefix byte selects, range by range, as the row its byte is a word of has it. -/
def Obligations.PrefixRowsSelectTheClass : Prop :=
  ∀ p : Byte,
    ((decodeWord (.wirePrefix p)).formClass = some .tiny ↔ p.toNat ≤ 252) ∧
    ((decodeWord (.wirePrefix p)).formClass = some .small ↔ p.toNat = 253) ∧
    ((decodeWord (.wirePrefix p)).formClass = some .medium ↔ p.toNat = 254) ∧
    ((decodeWord (.wirePrefix p)).formClass = some .large ↔ p.toNat = 255) ∧
    (decodeWord (.wirePrefix p)).formClass = some (classOfPrefix p)

/-- R15, R40: `MemWrite` then `MemRead` of one lane gives the byte written, another lane reads as before, and there is no
lane above 8. -/
def Obligations.LaneReadAfterWrite : Prop :=
  (∀ (b b' : Lanes) (k : Nat) (x : Byte), writeLane b k x = some b' →
    readLane b' k = some x ∧ ∀ j, j ≠ k → readLane b' j = readLane b j) ∧
  (∀ (b : Lanes) (k : Nat) (x : Byte), (writeLane b k x = none ↔ 9 ≤ k) ∧ (readLane b k = none ↔ 9 ≤ k))

/-- R14: the flat 72-bit bus carries byte `k` in bits `[8k+7:8k]`, and packing and unpacking lose nothing. -/
def Obligations.BusCarriesLaneBytes : Prop :=
  (∀ (bus : BitVec 72) (k : Nat) (h : k < 9), (lanesOfBus bus)[k] = bus.extractLsb' (8 * k) 8) ∧
  (∀ b : Lanes, lanesOfBus (busOfLanes b) = b) ∧ (∀ bus : BitVec 72, busOfLanes (lanesOfBus bus) = bus)

/-! ### Decode: what each request answers -/

/-- R121: `dec_len` = 0 gives EMPTY with every other output 0, whatever the lanes hold, and nothing else gives EMPTY. -/
def Obligations.DecodeEmptyWhenNoByte : Prop :=
  ∀ (s : State) (o : ByteOrder), s.DecKnown →
    (s.decIn.len = 0 → exec (decodeOf o) s = .next (s.setDecResp ⟨1, 0, 0, 0, 0⟩)) ∧
    ((∃ t d, exec (decodeOf o) s = .next t ∧ t.decResp = some d ∧ d.status = 1) ↔ s.decIn.len = 0)

/-- R122: fewer valid bytes than the form needs gives TRUNCATED with the total length needed and the number of valid bytes;
it happens only for prefix 0xFD with 1 to 2, 0xFE with 1 to 4, and 0xFF with 1 to 8 bytes. -/
def Obligations.DecodeTruncatedWhenShort : Prop :=
  ∀ (s : State) (o : ByteOrder), s.DecKnown →
    (s.decIn.buf[0] = 0xFD → 1 ≤ s.decIn.len.toNat → s.decIn.len.toNat < 3 →
      exec (decodeOf o) s = .next (s.setDecResp ⟨2, 0, 0, 3, s.decIn.len⟩)) ∧
    (s.decIn.buf[0] = 0xFE → 1 ≤ s.decIn.len.toNat → s.decIn.len.toNat < 5 →
      exec (decodeOf o) s = .next (s.setDecResp ⟨2, 0, 0, 5, s.decIn.len⟩)) ∧
    (s.decIn.buf[0] = 0xFF → 1 ≤ s.decIn.len.toNat → s.decIn.len.toNat < 9 →
      exec (decodeOf o) s = .next (s.setDecResp ⟨2, 0, 0, 9, s.decIn.len⟩)) ∧
    ((∃ t d, exec (decodeOf o) s = .next t ∧ t.decResp = some d ∧ d.status = 2) →
      1 ≤ s.decIn.len.toNat ∧
      ((s.decIn.buf[0] = 0xFD ∧ s.decIn.len.toNat ≤ 2) ∨ (s.decIn.buf[0] = 0xFE ∧ s.decIn.len.toNat ≤ 4) ∨
       (s.decIn.buf[0] = 0xFF ∧ s.decIn.len.toNat ≤ 8)))

/-- R84 (with R82, R83): what DECODE.LE answers to a complete form of each class: the first payload byte is the least
significant. -/
def Obligations.DecodeLittleEndianValue : Prop :=
  ∀ s : State, s.DecKnown →
    (s.decIn.buf[0].toNat ≤ 252 → 1 ≤ s.decIn.len.toNat →
      exec .decodeLE s = .next (s.setDecResp ⟨0, s.decIn.buf[0].setWidth 64, 1, 0, 0⟩)) ∧
    (s.decIn.buf[0] = 0xFD → 3 ≤ s.decIn.len.toNat →
      exec .decodeLE s = .next (s.setDecResp ⟨0, (s.decIn.buf[2] ++ s.decIn.buf[1]).setWidth 64, 3, 0, 0⟩)) ∧
    (s.decIn.buf[0] = 0xFE → 5 ≤ s.decIn.len.toNat →
      exec .decodeLE s = .next (s.setDecResp
        ⟨0, (s.decIn.buf[4] ++ s.decIn.buf[3] ++ s.decIn.buf[2] ++ s.decIn.buf[1]).setWidth 64, 5, 0, 0⟩)) ∧
    (s.decIn.buf[0] = 0xFF → 9 ≤ s.decIn.len.toNat →
      exec .decodeLE s = .next (s.setDecResp
        ⟨0, s.decIn.buf[8] ++ s.decIn.buf[7] ++ s.decIn.buf[6] ++ s.decIn.buf[5] ++
            s.decIn.buf[4] ++ s.decIn.buf[3] ++ s.decIn.buf[2] ++ s.decIn.buf[1], 9, 0, 0⟩))

/-- R85 (with R82, R83): what DECODE.BE answers to a complete form of each class: the first payload byte is the most
significant. -/
def Obligations.DecodeBigEndianValue : Prop :=
  ∀ s : State, s.DecKnown →
    (s.decIn.buf[0].toNat ≤ 252 → 1 ≤ s.decIn.len.toNat →
      exec .decodeBE s = .next (s.setDecResp ⟨0, s.decIn.buf[0].setWidth 64, 1, 0, 0⟩)) ∧
    (s.decIn.buf[0] = 0xFD → 3 ≤ s.decIn.len.toNat →
      exec .decodeBE s = .next (s.setDecResp ⟨0, (s.decIn.buf[1] ++ s.decIn.buf[2]).setWidth 64, 3, 0, 0⟩)) ∧
    (s.decIn.buf[0] = 0xFE → 5 ≤ s.decIn.len.toNat →
      exec .decodeBE s = .next (s.setDecResp
        ⟨0, (s.decIn.buf[1] ++ s.decIn.buf[2] ++ s.decIn.buf[3] ++ s.decIn.buf[4]).setWidth 64, 5, 0, 0⟩)) ∧
    (s.decIn.buf[0] = 0xFF → 9 ≤ s.decIn.len.toNat →
      exec .decodeBE s = .next (s.setDecResp
        ⟨0, s.decIn.buf[1] ++ s.decIn.buf[2] ++ s.decIn.buf[3] ++ s.decIn.buf[4] ++
            s.decIn.buf[5] ++ s.decIn.buf[6] ++ s.decIn.buf[7] ++ s.decIn.buf[8], 9, 0, 0⟩))

/-- Every Tiny prefix row completes with its byte as the value and 1 byte consumed. What a Tiny prefix on lane 0 is answered is
R64 and R83; that a row runs as an instruction, whatever byte lane 0 holds in the state, is the model's reading (assumption
6, DEDUCED). -/
def Obligations.TinyPrefixesAnswerTheirByte : Prop :=
  ∀ s : State, s.DecKnown → 1 ≤ s.decIn.len.toNat →
    (∀ v : BitVec 7, exec (.prefixTiny00 v) s = .next (s.setDecResp ⟨0, BitVec.ofNat 64 v.toNat, 1, 0, 0⟩)) ∧
    (∀ v : BitVec 6, exec (.prefixTiny80 v) s = .next (s.setDecResp ⟨0, BitVec.ofNat 64 (0x80 + v.toNat), 1, 0, 0⟩)) ∧
    (∀ v : BitVec 5, exec (.prefixTinyC0 v) s = .next (s.setDecResp ⟨0, BitVec.ofNat 64 (0xC0 + v.toNat), 1, 0, 0⟩)) ∧
    (∀ v : BitVec 4, exec (.prefixTinyE0 v) s = .next (s.setDecResp ⟨0, BitVec.ofNat 64 (0xE0 + v.toNat), 1, 0, 0⟩)) ∧
    (∀ v : BitVec 3, exec (.prefixTinyF0 v) s = .next (s.setDecResp ⟨0, BitVec.ofNat 64 (0xF0 + v.toNat), 1, 0, 0⟩)) ∧
    (∀ v : BitVec 2, exec (.prefixTinyF8 v) s = .next (s.setDecResp ⟨0, BitVec.ofNat 64 (0xF8 + v.toNat), 1, 0, 0⟩)) ∧
    exec .prefixTinyFC s = .next (s.setDecResp ⟨0, 252, 1, 0, 0⟩)

/-- The three sentinel prefixes complete with the payload on lanes 1 to `w`, in the order on `dec_order`, when all of the
form's bytes are valid. What such a prefix on lane 0 is answered is R64 and R83; that a row runs as an instruction, whatever
byte lane 0 holds in the state, is the model's reading (assumption 6, DEDUCED). -/
def Obligations.SentinelPrefixesAnswerPayload : Prop :=
  ∀ s : State, s.DecKnown →
    (3 ≤ s.decIn.len.toNat → exec .prefixSmall s = .next (s.setDecResp
      ⟨0, if s.decIn.order = 0 then (s.decIn.buf[2] ++ s.decIn.buf[1]).setWidth 64
          else (s.decIn.buf[1] ++ s.decIn.buf[2]).setWidth 64, 3, 0, 0⟩)) ∧
    (5 ≤ s.decIn.len.toNat → exec .prefixMedium s = .next (s.setDecResp
      ⟨0, if s.decIn.order = 0 then (s.decIn.buf[4] ++ s.decIn.buf[3] ++ s.decIn.buf[2] ++ s.decIn.buf[1]).setWidth 64
          else (s.decIn.buf[1] ++ s.decIn.buf[2] ++ s.decIn.buf[3] ++ s.decIn.buf[4]).setWidth 64, 5, 0, 0⟩)) ∧
    (9 ≤ s.decIn.len.toNat → exec .prefixLarge s = .next (s.setDecResp
      ⟨0, if s.decIn.order = 0 then
            s.decIn.buf[8] ++ s.decIn.buf[7] ++ s.decIn.buf[6] ++ s.decIn.buf[5] ++
            s.decIn.buf[4] ++ s.decIn.buf[3] ++ s.decIn.buf[2] ++ s.decIn.buf[1]
          else
            s.decIn.buf[1] ++ s.decIn.buf[2] ++ s.decIn.buf[3] ++ s.decIn.buf[4] ++
            s.decIn.buf[5] ++ s.decIn.buf[6] ++ s.decIn.buf[7] ++ s.decIn.buf[8], 9, 0, 0⟩))

/-- R122 for the sentinel prefixes, and the model's reading of a wire prefix with no valid byte (assumption 6): TRUNCATED
when the form's bytes are not all valid, EMPTY for every wire prefix when no byte is. -/
def Obligations.PrefixesEndShortForms : Prop :=
  ∀ s : State, s.DecKnown →
    (1 ≤ s.decIn.len.toNat → s.decIn.len.toNat < 3 →
      exec .prefixSmall s = .next (s.setDecResp ⟨2, 0, 0, 3, s.decIn.len⟩)) ∧
    (1 ≤ s.decIn.len.toNat → s.decIn.len.toNat < 5 →
      exec .prefixMedium s = .next (s.setDecResp ⟨2, 0, 0, 5, s.decIn.len⟩)) ∧
    (1 ≤ s.decIn.len.toNat → s.decIn.len.toNat < 9 →
      exec .prefixLarge s = .next (s.setDecResp ⟨2, 0, 0, 9, s.decIn.len⟩)) ∧
    (s.decIn.len = 0 → ∀ p : Byte, exec (decodePrefix p) s = .next (s.setDecResp ⟨1, 0, 0, 0, 0⟩))

/-! ### Decode: properties -/

/-- R86: for prefix 0xFD, 0xFE or 0xFF with a complete payload the response is OK with the payload value, whatever that
value is, canonical or not; the payload bytes are placed as R66 says. -/
def Obligations.DecodeAcceptsEveryPayloadValue : Prop :=
  ∀ (s : State) (o : ByteOrder) (c : SizeClass) (u : Value), s.DecKnown → c ≠ .tiny → u.toNat < 2 ^ (8 * c.width) →
    classOfPrefix s.decIn.buf[0] = c → c.formLength ≤ s.decIn.len.toNat →
    (∀ (i : Nat) (h : 1 + i < 9), i < c.width → s.decIn.buf[1 + i] =
      match o with
      | .littleEndian => u.extractLsb' (8 * i) 8
      | .bigEndian => u.extractLsb' (8 * (c.width - 1 - i)) 8) →
    exec (decodeOf o) s = .next (s.setDecResp ⟨0, u, BitVec.ofNat 4 c.formLength, 0, 0⟩)

/-- Every decode response depends on `dec_len` only through `n`, a number 0 to 9; 9 to 15 act as 9. Of the two decode
operations this is R81; that the ten wire prefixes answer as instructions, and so have a response to speak of, is the
model's reading (assumption 6, DEDUCED). -/
def Obligations.DecodeUsesEffectiveLength : Prop :=
  ∀ (s : State) (len : Count) (i : Instr), blockOf i = .decoder → s.DecKnown →
    (9 ≤ len.toNat → 9 ≤ s.decIn.len.toNat) → (len.toNat < 9 → s.decIn.len = len) →
    effLen len ≤ 9 ∧
    ∃ t u, exec i s = .next t ∧ exec i (s.setDecIn { s.decIn with len := len } s.decUnknown) = .next u ∧
      u.decResp = t.decResp

/-- R87: on OK, `dec_consumed` = 1 + Width(ClassOfPrefix(lane 0)), which is 1, 3, 5 or 9, and never exceeds `n`. -/
def Obligations.ConsumedIsTheFormLength : Prop :=
  ∀ (s t : State) (d : DecOut) (o : ByteOrder), exec (decodeOf o) s = .next t → t.decResp = some d → d.status = 0 →
    d.consumed.toNat = 1 + (classOfPrefix s.decIn.buf[0]).width ∧
    d.consumed.toNat ∈ [1, 3, 5, 9] ∧ d.consumed.toNat ≤ effLen s.decIn.len

/-- R88: on OK, the value is bounded by the prefix, and prefix 0xFF gives any 64-bit value. -/
def Obligations.ValueBoundedByPrefix : Prop :=
  (∀ (s t : State) (d : DecOut) (o : ByteOrder), exec (decodeOf o) s = .next t → t.decResp = some d → d.status = 0 →
    (s.decIn.buf[0].toNat ≤ 252 → d.value.toNat = s.decIn.buf[0].toNat) ∧
    (s.decIn.buf[0] = 0xFD → d.value.toNat ≤ 65535) ∧
    (s.decIn.buf[0] = 0xFE → d.value.toNat ≤ 4294967295)) ∧
  (∀ (v : Value) (o : ByteOrder), ∃ (s t : State) (d : DecOut), s.decIn.buf[0] = 0xFF ∧
    exec (decodeOf o) s = .next t ∧ t.decResp = some d ∧ d.status = 0 ∧ d.value = v)

/-- R90, R41: on OK, other contents of the lanes from `dec_consumed` on and a larger `dec_len` give the same response; on
an error, other contents of the lanes from `n` on do. -/
def Obligations.LanesAfterTheFormDoNotMatter : Prop :=
  ∀ (s s' t : State) (d : DecOut) (o : ByteOrder), s.DecKnown → s'.DecKnown → exec (decodeOf o) s = .next t →
    t.decResp = some d →
    (d.status = 0 → s.decIn.len.toNat ≤ s'.decIn.len.toNat →
      (∀ (k : Nat) (h : k < 9), k < d.consumed.toNat → s'.decIn.buf[k] = s.decIn.buf[k]) →
      exec (decodeOf o) s' = .next (s'.setDecResp d)) ∧
    (d.status ≠ 0 → s'.decIn.len = s.decIn.len →
      (∀ (k : Nat) (h : k < 9), k < effLen s.decIn.len → s'.decIn.buf[k] = s.decIn.buf[k]) →
      exec (decodeOf o) s' = .next (s'.setDecResp d))

/-- R91: a Tiny prefix gives equal responses in both orders; DECODE.BE of a payload equals DECODE.LE of the same form with
the payload reversed. -/
def Obligations.ByteOrderReversesThePayload : Prop :=
  (∀ s : State, (classOfPrefix s.decIn.buf[0]) = .tiny → exec .decodeLE s = exec .decodeBE s) ∧
  (∀ s s' : State, s.DecKnown → s'.DecKnown → s'.decIn.buf[0] = s.decIn.buf[0] → s'.decIn.len = s.decIn.len →
    (classOfPrefix s.decIn.buf[0]).formLength ≤ s.decIn.len.toNat →
    (∀ (i : Nat) (h : i < (classOfPrefix s.decIn.buf[0]).width) (h1 : 1 + i < 9)
      (h2 : (classOfPrefix s.decIn.buf[0]).width - i < 9),
      s'.decIn.buf[1 + i] = s.decIn.buf[(classOfPrefix s.decIn.buf[0]).width - i]) →
    ∃ d : DecOut, d.status = 0 ∧ exec .decodeBE s = .next (s.setDecResp d) ∧ exec .decodeLE s' = .next (s'.setDecResp d))

/-- R125, R120: a decode request reports one of three results, EMPTY tested first and TRUNCATED second, and the two cannot
both apply. -/
def Obligations.StatusFollowsTheLength : Prop :=
  ∀ (s : State) (o : ByteOrder), s.DecKnown →
    ∃ d : DecOut, exec (decodeOf o) s = .next (s.setDecResp d) ∧ (d.status = 0 ∨ d.status = 1 ∨ d.status = 2) ∧
      (d.status = 1 ↔ effLen s.decIn.len = 0) ∧
      (d.status = 2 ↔
        1 ≤ effLen s.decIn.len ∧ effLen s.decIn.len < 1 + (classOfPrefix s.decIn.buf[0]).width) ∧
      (d.status = 0 ↔ 1 + (classOfPrefix s.decIn.buf[0]).width ≤ effLen s.decIn.len)

/-- R30: outputs a response does not use are driven to 0, in the response of whichever instruction the decoder ran (a wire
prefix run as an instruction is the model's reading, assumption 6) and on the output ports at every time. -/
def Obligations.DecoderOutputsFollowTheTable : Prop :=
  ∀ (s : State) (d : DecOut),
    ((∃ (t : State) (i : Instr), blockOf i = .decoder ∧ exec i s = .next t ∧ t.decResp = some d) ∨ s.decOut = some d) →
    (d.status = 0 → d.consumed.toNat ∈ [1, 3, 5, 9] ∧ d.needed = 0 ∧ d.available = 0) ∧
    (d.status = 1 → d.value = 0 ∧ d.consumed = 0 ∧ d.needed = 0 ∧ d.available = 0) ∧
    (d.status = 2 →
      d.value = 0 ∧ d.consumed = 0 ∧ d.needed.toNat ∈ [3, 5, 9] ∧
      1 ≤ d.available.toNat ∧ d.available.toNat ≤ 8) ∧
    d.status ≠ 3

/-! ### Encode: what each request answers -/

/-- R103 (with R31, R100, R102): what ENCODE.LE answers, range by range; payload byte `i` is bits `8i+7` to `8i`. -/
def Obligations.EncodeLittleEndianForm : Prop :=
  ∀ s : State, s.EncKnown →
    (s.encIn.value.toNat ≤ 252 →
      exec .encodeLE s = .next (s.setEncResp ⟨#v[s.encIn.value.extractLsb' 0 8, 0, 0, 0, 0, 0, 0, 0, 0], 1⟩)) ∧
    (253 ≤ s.encIn.value.toNat → s.encIn.value.toNat ≤ 4095 →
      exec .encodeLE s = .next (s.setEncResp
        ⟨#v[0xFD, s.encIn.value.extractLsb' 0 8, s.encIn.value.extractLsb' 8 8, 0, 0, 0, 0, 0, 0], 3⟩)) ∧
    (4096 ≤ s.encIn.value.toNat → s.encIn.value.toNat ≤ 4294967295 →
      exec .encodeLE s = .next (s.setEncResp
        ⟨#v[0xFE, s.encIn.value.extractLsb' 0 8, s.encIn.value.extractLsb' 8 8, s.encIn.value.extractLsb' 16 8,
            s.encIn.value.extractLsb' 24 8, 0, 0, 0, 0], 5⟩)) ∧
    (4294967296 ≤ s.encIn.value.toNat →
      exec .encodeLE s = .next (s.setEncResp
        ⟨#v[0xFF, s.encIn.value.extractLsb' 0 8, s.encIn.value.extractLsb' 8 8, s.encIn.value.extractLsb' 16 8,
            s.encIn.value.extractLsb' 24 8, s.encIn.value.extractLsb' 32 8, s.encIn.value.extractLsb' 40 8,
            s.encIn.value.extractLsb' 48 8, s.encIn.value.extractLsb' 56 8], 9⟩))

/-- R104 (with R31, R100, R102): what ENCODE.BE answers, range by range; the most significant payload byte first. -/
def Obligations.EncodeBigEndianForm : Prop :=
  ∀ s : State, s.EncKnown →
    (s.encIn.value.toNat ≤ 252 →
      exec .encodeBE s = .next (s.setEncResp ⟨#v[s.encIn.value.extractLsb' 0 8, 0, 0, 0, 0, 0, 0, 0, 0], 1⟩)) ∧
    (253 ≤ s.encIn.value.toNat → s.encIn.value.toNat ≤ 4095 →
      exec .encodeBE s = .next (s.setEncResp
        ⟨#v[0xFD, s.encIn.value.extractLsb' 8 8, s.encIn.value.extractLsb' 0 8, 0, 0, 0, 0, 0, 0], 3⟩)) ∧
    (4096 ≤ s.encIn.value.toNat → s.encIn.value.toNat ≤ 4294967295 →
      exec .encodeBE s = .next (s.setEncResp
        ⟨#v[0xFE, s.encIn.value.extractLsb' 24 8, s.encIn.value.extractLsb' 16 8, s.encIn.value.extractLsb' 8 8,
            s.encIn.value.extractLsb' 0 8, 0, 0, 0, 0], 5⟩)) ∧
    (4294967296 ≤ s.encIn.value.toNat →
      exec .encodeBE s = .next (s.setEncResp
        ⟨#v[0xFF, s.encIn.value.extractLsb' 56 8, s.encIn.value.extractLsb' 48 8, s.encIn.value.extractLsb' 40 8,
            s.encIn.value.extractLsb' 32 8, s.encIn.value.extractLsb' 24 8, s.encIn.value.extractLsb' 16 8,
            s.encIn.value.extractLsb' 8 8, s.encIn.value.extractLsb' 0 8], 9⟩))

/-- R106: `enc_len` by value, for both orders. -/
def Obligations.EncodedLengthByValue : Prop :=
  ∀ (s : State) (o : ByteOrder), s.EncKnown →
    ∃ e : EncOut, exec (encodeOf o) s = .next (s.setEncResp e) ∧
      (s.encIn.value.toNat ≤ 252 → e.len = 1) ∧
      (253 ≤ s.encIn.value.toNat → s.encIn.value.toNat ≤ 4095 → e.len = 3) ∧
      (4096 ≤ s.encIn.value.toNat → s.encIn.value.toNat ≤ 4294967295 → e.len = 5) ∧
      (4294967296 ≤ s.encIn.value.toNat → e.len = 9)

/-! ### Encode: properties -/

/-- R31: encoder output lanes at index `enc_len` and above are driven to 0x00, and the lanes before them hold the encoded
form; so in the response of an encode operation, and so on the output ports at every time. -/
def Obligations.EncoderLanesAfterTheFormAreZero : Prop :=
  (∀ (s t : State) (e : EncOut) (o : ByteOrder), exec (encodeOf o) s = .next t → t.encResp = some e →
    e.form = encodedForm o s.encIn.value ∧ ∀ (k : Nat) (h : k < 9), e.len.toNat ≤ k → e.buf[k] = 0) ∧
  (∀ (s : State) (e : EncOut), s.encOut = some e →
    e.form = encodedForm (orderOfBit s.encIn.order) s.encIn.value ∧
    ∀ (k : Nat) (h : k < 9), e.len.toNat ≤ k → e.buf[k] = 0)

/-- R101: the class, the prefix and `enc_len` depend on `enc_value` alone, never on `enc_order`. -/
def Obligations.ClassDoesNotDependOnOrder : Prop :=
  ∀ (s s' t t' : State) (e e' : EncOut) (o o' : ByteOrder), s.encIn.value = s'.encIn.value →
    exec (encodeOf o) s = .next t → t.encResp = some e → exec (encodeOf o') s' = .next t' → t'.encResp = some e' →
    e.len = e'.len ∧ e.buf[0] = e'.buf[0] ∧ classOfPrefix e.buf[0] = classOfPrefix e'.buf[0] ∧
    classOfPrefix e.buf[0] = classOfValue s.encIn.value

/-- R107: the payload holds the value in `w` bytes, the value is below 2^(8w) where there is a payload, every payload byte
above its significant bytes is 0x00, and a Small form's most significant payload byte is at most 0x0F. -/
def Obligations.ExcessPayloadBytesAreZero : Prop :=
  ∀ (s t u : State) (e f : EncOut) (i : Nat), exec .encodeLE s = .next t → t.encResp = some e →
    exec .encodeBE s = .next u → u.encResp = some f →
    (∀ (h : 1 + i < 9) (h' : (classOfValue s.encIn.value).width - i < 9), i < (classOfValue s.encIn.value).width →
      s.encIn.value.toNat < 2 ^ (8 * i) →
      e.buf[1 + i] = 0 ∧ f.buf[(classOfValue s.encIn.value).width - i] = 0) ∧
    (e.form.drop 1).length = (classOfValue s.encIn.value).width ∧
    (f.form.drop 1).length = (classOfValue s.encIn.value).width ∧
    (classOfValue s.encIn.value ≠ .tiny → s.encIn.value.toNat < 2 ^ (8 * (classOfValue s.encIn.value).width)) ∧
    (classOfValue s.encIn.value = .small →
      s.encIn.value.toNat ≤ 0x0FFF ∧ e.buf[2].toNat ≤ 0x0F ∧ f.buf[1].toNat ≤ 0x0F)

/-- R110: ENCODE.LE and ENCODE.BE of one value have the same prefix and length, their payloads are each other's reversal,
and for a Tiny value the outputs are equal. -/
def Obligations.EncodeOrdersReverseThePayload : Prop :=
  ∀ s : State, s.EncKnown →
    ∃ e f : EncOut, exec .encodeLE s = .next (s.setEncResp e) ∧ exec .encodeBE s = .next (s.setEncResp f) ∧
      e.buf[0] = f.buf[0] ∧ e.len = f.len ∧ f.form.drop 1 = (e.form.drop 1).reverse ∧
      (s.encIn.value.toNat ≤ 252 → e = f)

/-- R108: the round trip. Whatever the value and the order, decoding lanes that hold the encoder's form, with `dec_len` its
length, gives OK with the value and that length. -/
def Obligations.DecodeInvertsEncode : Prop :=
  ∀ (s : State) (o : ByteOrder), s.EncKnown →
    ∃ e : EncOut, exec (encodeOf o) s = .next (s.setEncResp e) ∧
      ∀ u : State, u.DecKnown → u.decIn.len = e.len →
        (∀ (k : Nat) (h : k < 9), k < e.len.toNat → u.decIn.buf[k] = e.buf[k]) →
        exec (decodeOf o) u = .next (u.setDecResp ⟨0, s.encIn.value, e.len, 0, 0⟩)

/-- R109: encoding the value a complete form decodes to gives that form back exactly when the form is canonical; for a
non-canonical form the encoder's output has another length. -/
def Obligations.EncodeInvertsDecodeOnCanonicalForms : Prop :=
  ∀ (s t u : State) (d : DecOut) (o : ByteOrder), exec (decodeOf o) s = .next t → t.decResp = some d → d.status = 0 →
    u.EncKnown → u.encIn.value = d.value →
    ∃ e : EncOut, exec (encodeOf o) u = .next (u.setEncResp e) ∧
      (e.form = s.decIn.buf.toList.take d.consumed.toNat ↔ classOfPrefix s.decIn.buf[0] = classOfValue d.value) ∧
      (classOfPrefix s.decIn.buf[0] ≠ classOfValue d.value → e.len ≠ d.consumed)

/-- R109, R67: the encoder writes only canonical forms: its output is the bytes of one well-formed form whose class is the
class of its value, which is the value encoded. -/
def Obligations.EncoderWritesCanonicalForms : Prop :=
  ∀ (s t : State) (e : EncOut) (o : ByteOrder), exec (encodeOf o) s = .next t → t.encResp = some e →
    ∃ f : EncodedForm, f.wellFormed = true ∧ canonicalForm o f = true ∧ f.bytes = e.form ∧
      formValue o f = s.encIn.value

/-- R148: 4096 to 65535 are encoded as Medium, 5 bytes, and the decoder reads both the 0xFD form and the 0xFE form of such a
value to the same value. -/
def Obligations.MediumThresholdIsKept : Prop :=
  ∀ (s a b : State) (o : ByteOrder), s.EncKnown → 4096 ≤ s.encIn.value.toNat → s.encIn.value.toNat ≤ 65535 →
    a.DecKnown → a.decIn.len = 3 → a.decIn.buf[0] = 0xFD →
    [a.decIn.buf[1], a.decIn.buf[2]] = render o s.encIn.value 2 →
    b.DecKnown → b.decIn.len = 5 → b.decIn.buf[0] = 0xFE →
    [b.decIn.buf[1], b.decIn.buf[2], b.decIn.buf[3], b.decIn.buf[4]] = render o s.encIn.value 4 →
    (∃ e : EncOut, exec (encodeOf o) s = .next (s.setEncResp e) ∧ e.len = 5 ∧
      e.form = 0xFE :: render o s.encIn.value 4) ∧
    exec (decodeOf o) a = .next (a.setDecResp ⟨0, s.encIn.value, 3, 0, 0⟩) ∧
    exec (decodeOf o) b = .next (b.setDecResp ⟨0, s.encIn.value, 5, 0, 0⟩)

/-- R45, R145: decoding a form in the order it was not encoded in, either way round, is not an error: status OK, the same
consumed length, and the value of the reversed payload. -/
def Obligations.WrongOrderIsNoError : Prop :=
  ∀ (s : State) (o o' : ByteOrder), o ≠ o' → s.EncKnown → 253 ≤ s.encIn.value.toNat →
    ∃ e : EncOut, exec (encodeOf o) s = .next (s.setEncResp e) ∧
      ∀ u : State, u.DecKnown → u.decIn.len = e.len →
        (∀ (k : Nat) (h : k < 9), k < e.len.toNat → u.decIn.buf[k] = e.buf[k]) →
        exec (decodeOf o') u = .next (u.setDecResp ⟨0, assemble o (e.form.drop 1).reverse, e.len, 0, 0⟩)

/-! ### The whole machine -/

/-- A request whose input bits are all known has a response, for every instruction and all input values (decode requests:
R28; encode requests: R29, R105, R124), and a request with an undriven or unknown input bit is refused (R28). That each wire
prefix answers as an instruction is the model's reading (assumption 6, DEDUCED); the masks that represent an unknown bit,
and the refusal by them, are assumption 3 (DESIGN CHOICE). -/
def Obligations.EveryKnownRequestIsAnswered : Prop :=
  ∀ (i : Instr) (s : State),
    (s.Known (blockOf i) → ∃ t, exec i s = .next t) ∧
    (¬ s.Known (blockOf i) → exec i s = .refused .unknownInput)

/-- R92, R123, R124: no instruction faults, in any state; nor does a step. -/
def Obligations.NoRequestFaults : Prop :=
  (∀ (i : Instr) (s : State) (r : Fault), exec i s ≠ .fault r) ∧ ∀ s : State, s.Safe

/-- Frame of the twelve instructions the decoder runs (DECODE.LE, DECODE.BE and the ten wire prefixes): all that the next
state has of the decoder is its response; the block asked, every input port, every output port and the encoder's response
are as before (R20, R25, R32, R50, R93). That the wire prefixes run as instructions is assumption 6, the masks of unknown
bits are assumption 3, and the record of responses is assumption 4. -/
def Obligations.DecoderRequestFrame : Prop :=
  ∀ (i : Instr) (s t : State), blockOf i = .decoder → exec i s = .next t →
    t.block = s.block ∧ t.decIn = s.decIn ∧ t.decUnknown = s.decUnknown ∧
    t.encIn = s.encIn ∧ t.encUnknown = s.encUnknown ∧ t.encResp = s.encResp ∧
    t.decOut = s.decOut ∧ t.encOut = s.encOut

/-- Frame of ENCODE.LE and ENCODE.BE: all that the next state has of the encoder is its response; the block asked, every
input port, every output port and the decoder's response are as before (R20, R25, R32, R50). The masks of unknown bits are
assumption 3, the record of responses is assumption 4. -/
def Obligations.EncoderRequestFrame : Prop :=
  ∀ (i : Instr) (s t : State), blockOf i = .encoder → exec i s = .next t →
    t.block = s.block ∧ t.decIn = s.decIn ∧ t.decUnknown = s.decUnknown ∧
    t.encIn = s.encIn ∧ t.encUnknown = s.encUnknown ∧ t.decResp = s.decResp ∧
    t.decOut = s.decOut ∧ t.encOut = s.encOut

/-- R32: each output port is a function of the same block's present inputs alone: in two states with equal inputs of a block,
and nothing else in common, its output ports carry equal values at once, whichever block is asked, and a step that asks it
returns those values in both. -/
def Obligations.ResponseDependsOnTheRequestOnly : Prop :=
  (∀ s s' : State, s.DecKnown → s'.DecKnown → s.decIn = s'.decIn →
    ∃ d : DecOut, s.decOut = some d ∧ s'.decOut = some d ∧
      (s.block = .decoder → step s = .next (s.setDecResp d)) ∧
      (s'.block = .decoder → step s' = .next (s'.setDecResp d))) ∧
  (∀ s s' : State, s.EncKnown → s'.EncKnown → s.encIn = s'.encIn →
    ∃ e : EncOut, s.encOut = some e ∧ s'.encOut = some e ∧
      (s.block = .encoder → step s = .next (s.setEncResp e)) ∧
      (s'.block = .encoder → step s' = .next (s'.setEncResp e)))

/-- R32, R33, R34, R140: at every time the output ports are the function of the present inputs: a step changes no output
port, and the response it returns is what the output ports of the block asked carry, before it and after it. That State
keeps the response on record is the model's choice (assumption 4, DESIGN CHOICE). -/
def Obligations.StepReturnsTheOutputPorts : Prop :=
  ∀ s t : State, step s = .next t →
    t.decOut = s.decOut ∧ t.encOut = s.encOut ∧
    (s.block = .decoder → t.decResp = s.decOut ∧ (∃ d, t.decResp = some d) ∧ t.encResp = s.encResp) ∧
    (s.block = .encoder → t.encResp = s.encOut ∧ (∃ e, t.encResp = some e) ∧ t.decResp = s.decResp)

/-- R32, R142: no response is left over from an earlier request: from every state whose responses are those of the inputs now
on the ports, a step leaves a state whose responses are. The record of responses is the model's choice (assumption 4,
DESIGN CHOICE). -/
def Obligations.StepKeepsResponsesCurrent : Prop :=
  ∀ s t : State, s.ResponsesCurrent → step s = .next t → t.ResponsesCurrent

/-- The model's embedding keeps the responses current too when it asks the other block, drives inputs, known or not, or
presents a table word. That the output ports are at once the function of new known inputs is R33 and R140. The rest is the
model's choice (all DESIGN CHOICE): that ports carry no value while a mask bit is set is assumption 3, that driving inputs
takes the recorded response away is assumption 4, and what presenting a table word drives is assumptions 7 and 8. -/
def Obligations.DrivingInputsKeepsResponsesCurrent : Prop :=
  ∀ s : State, s.ResponsesCurrent →
    (∀ b : Block, (s.setBlock b).ResponsesCurrent) ∧
    (∀ i mask : DecIn, (s.setDecIn i mask).ResponsesCurrent ∧ (s.setDecIn i mask).decResp = none ∧
      (mask = DecIn.zeros → (s.setDecIn i mask).decOut = decodeFunction (orderOfBit i.order) i) ∧
      (mask ≠ DecIn.zeros → (s.setDecIn i mask).decOut = none)) ∧
    (∀ i mask : EncIn, (s.setEncIn i mask).ResponsesCurrent ∧ (s.setEncIn i mask).encResp = none ∧
      (mask = EncIn.zeros → (s.setEncIn i mask).encOut = encodeFunction (orderOfBit i.order) i.value) ∧
      (mask ≠ EncIn.zeros → (s.setEncIn i mask).encOut = none)) ∧
    (∀ nbits w : Nat, (s.withFetchWord nbits w).ResponsesCurrent)

/-- At reset no request has been served, so no response is left over (R33; assumption 5). -/
def Obligations.ResetResponsesCurrent : Prop :=
  State.reset.ResponsesCurrent ∧ State.reset.decResp = none ∧ State.reset.encResp = none

/-- R50: a request repeated gives the same response. -/
def Obligations.RepeatedRequestIsIdempotent : Prop :=
  ∀ s t : State, step s = .next t → step t = .next t

/-- The outputs stay legal: a step from a state whose responses on record follow R30's table and R31, whatever its output
ports carry, leaves a state whose responses and output ports follow them (R27, R30, R31, R65, R71). -/
def Obligations.StepKeepsOutputsLegal : Prop :=
  ∀ s t : State, s.ResponsesLegal → step s = .next t → t.OutputsLegal

/-- The outputs at reset are legal. The values rest on the model's choice of inputs at reset (assumptions 1, 2, 5). -/
def Obligations.ResetOutputsLegal : Prop := State.reset.OutputsLegal

/-- R33, R140 on the model's inputs at reset (assumptions 1, 2, 3, 5): the output ports at reset are the function of the inputs
at reset, and a request then returns them, from either block. -/
def Obligations.ResetOutputsAreTheResponses : Prop :=
  State.reset.decOut = some ⟨1, 0, 0, 0, 0⟩ ∧ State.reset.encOut = some ⟨#v[0, 0, 0, 0, 0, 0, 0, 0, 0], 1⟩ ∧
  step State.reset = .next (State.reset.setDecResp ⟨1, 0, 0, 0, 0⟩) ∧
  step (State.reset.setBlock .encoder) =
    .next ((State.reset.setBlock .encoder).setEncResp ⟨#v[0, 0, 0, 0, 0, 0, 0, 0, 0], 1⟩)

/-! ### The embedding -/

/-- R42, R75: presented from a host buffer of any length at any offset, a decode step answers what the contract
`decode(bytes, order)` gives for all the bytes from that offset on. -/
def Obligations.DecodeStepMeetsTheContract : Prop :=
  ∀ (s : State) (o : ByteOrder) (bytes : List Byte) (off : Nat),
    step (s.presentDecode o bytes off) =
      .next ((s.presentDecode o bytes off).setDecResp (DecOut.ofResult (contractDecode o (bytes.drop off))))

/-- R42: `dec_len` of 9 or of any value up to 15 gives the response of the whole buffer, for a buffer of at least nine
bytes. -/
def Obligations.LongBufferOnNineLanes : Prop :=
  ∀ (s : State) (o : ByteOrder) (bytes : List Byte), s.DecKnown → 9 ≤ bytes.length → 9 ≤ s.decIn.len.toNat →
    s.decIn.buf.toList = bytes.take 9 →
    exec (decodeOf o) s = .next (s.setDecResp (DecOut.ofResult (contractDecode o bytes)))

/-- R146: after TRUNCATED, presenting the same buffer with at least the needed bytes is answered OK with exactly the needed
length consumed, from whatever state the first request left. -/
def Obligations.TruncationIsRecovered : Prop :=
  ∀ (s t : State) (d : DecOut) (o : ByteOrder) (bytes more : List Byte), step (s.presentDecode o bytes 0) = .next t →
    t.decResp = some d → d.status = 2 → d.needed.toNat ≤ bytes.length + more.length →
    ∃ d' : DecOut, step (t.presentDecode o (bytes ++ more) 0) =
      .next ((t.presentDecode o (bytes ++ more) 0).setDecResp d') ∧ d'.status = 0 ∧ d'.consumed = d.needed

/-- R147: the canonical check of an embedding passes exactly on canonical forms. -/
def Obligations.CanonicalCheckFindsNonCanonical : Prop :=
  ∀ (s t : State) (d : DecOut) (o : ByteOrder), exec (decodeOf o) s = .next t → t.decResp = some d → d.status = 0 →
    (canonicalCheck o t = some true ↔ classOfPrefix s.decIn.buf[0] = classOfValue d.value) ∧
    (canonicalCheck o t = some false ↔ classOfPrefix s.decIn.buf[0] ≠ classOfValue d.value)

/-- R75, R71: ADVANCE moves the offset by `dec_consumed` only after OK; a status of 3 is refused. Where no decode was served
the offset stays (assumption 11). -/
def Obligations.AdvanceMovesOnlyAfterOk : Prop :=
  ∀ e : Embedding,
    (∀ d, e.blocks.decResp = some d →
      (d.status = 0 → advance e = .next { e with offset := e.offset + d.consumed.toNat }) ∧
      (d.status = 1 → advance e = .next e) ∧
      (d.status = 2 → advance e = .next e) ∧
      (d.status = 3 → advance e = .refused .statusNotDriven)) ∧
    (e.blocks.decResp = none → advance e = .next e)

/-- R75, R108: ROUNDTRIP ends with the value and its encoded length in the decoder's response and leaves the host's buffer
and offset alone. -/
def Obligations.RoundTripGivesTheValueBack : Prop :=
  ∀ (e : Embedding) (o : ByteOrder) (v : Value),
    ∃ e', roundTrip o v e = .next e' ∧ e'.buffer = e.buffer ∧ e'.offset = e.offset ∧
      e'.blocks.decResp = some ⟨0, v, BitVec.ofNat 4 (classOfValue v).formLength, 0, 0⟩

/-- R75, R108: a value emitted at the end of a host buffer is decoded at the offset where the buffer ended before, and
ADVANCE then stands at its new end. -/
def Obligations.EmittedValueIsParsed : Prop :=
  ∀ (e : Embedding) (o : ByteOrder) (v : Value), e.offset = e.buffer.length →
    ∃ a b c d, emit o v e = .next a ∧ hostDecode o a = .next b ∧ advance b = .next c ∧
      a.buffer = e.buffer ++ encodedForm o v ∧ b.blocks.decResp = some d ∧ d.status = 0 ∧ d.value = v ∧
      c.buffer = a.buffer ∧ c.offset = a.buffer.length
end

