-- ==== Sys2Proof/Config.lean ====
section
/-! DEFINITION. What the spec leaves to the implementation. Every other parameter of spec/00_scope.md R11 is fixed and
stands in Sys2Proof/Machine/SizeClass.lean. -/

namespace Sys2Proof

/-- `T_PROP`, the settling time from an input change to a valid output: OPEN, the implementation's (R11, R150).
No rule depends on it (92_eei_decisions.md D18), so no definition of the model reads it (assumption 9). -/
opaque Config.tProp : Nat

end Sys2Proof
end

