-- ==== Sys2Proof/Laws/State.lean ====
section
/-! SUPPORT. One lemma per field per update of State. -/

namespace Sys2Proof.Machine

variable (s : State)

@[simp] theorem State.setDecResp_block (o : DecOut) : (s.setDecResp o).block = s.block := rfl
@[simp] theorem State.setDecResp_decIn (o : DecOut) : (s.setDecResp o).decIn = s.decIn := rfl
@[simp] theorem State.setDecResp_decUnknown (o : DecOut) : (s.setDecResp o).decUnknown = s.decUnknown := rfl
@[simp] theorem State.setDecResp_decResp (o : DecOut) : (s.setDecResp o).decResp = some o := rfl
@[simp] theorem State.setDecResp_encIn (o : DecOut) : (s.setDecResp o).encIn = s.encIn := rfl
@[simp] theorem State.setDecResp_encUnknown (o : DecOut) : (s.setDecResp o).encUnknown = s.encUnknown := rfl
@[simp] theorem State.setDecResp_encResp (o : DecOut) : (s.setDecResp o).encResp = s.encResp := rfl

@[simp] theorem State.setEncResp_block (o : EncOut) : (s.setEncResp o).block = s.block := rfl
@[simp] theorem State.setEncResp_decIn (o : EncOut) : (s.setEncResp o).decIn = s.decIn := rfl
@[simp] theorem State.setEncResp_decUnknown (o : EncOut) : (s.setEncResp o).decUnknown = s.decUnknown := rfl
@[simp] theorem State.setEncResp_decResp (o : EncOut) : (s.setEncResp o).decResp = s.decResp := rfl
@[simp] theorem State.setEncResp_encIn (o : EncOut) : (s.setEncResp o).encIn = s.encIn := rfl
@[simp] theorem State.setEncResp_encUnknown (o : EncOut) : (s.setEncResp o).encUnknown = s.encUnknown := rfl
@[simp] theorem State.setEncResp_encResp (o : EncOut) : (s.setEncResp o).encResp = some o := rfl

@[simp] theorem State.setBlock_block (b : Block) : (s.setBlock b).block = b := rfl
@[simp] theorem State.setBlock_decIn (b : Block) : (s.setBlock b).decIn = s.decIn := rfl
@[simp] theorem State.setBlock_decUnknown (b : Block) : (s.setBlock b).decUnknown = s.decUnknown := rfl
@[simp] theorem State.setBlock_decResp (b : Block) : (s.setBlock b).decResp = s.decResp := rfl
@[simp] theorem State.setBlock_encIn (b : Block) : (s.setBlock b).encIn = s.encIn := rfl
@[simp] theorem State.setBlock_encUnknown (b : Block) : (s.setBlock b).encUnknown = s.encUnknown := rfl
@[simp] theorem State.setBlock_encResp (b : Block) : (s.setBlock b).encResp = s.encResp := rfl

@[simp] theorem State.setDecIn_block (i m : DecIn) : (s.setDecIn i m).block = s.block := rfl
@[simp] theorem State.setDecIn_decIn (i m : DecIn) : (s.setDecIn i m).decIn = i := rfl
@[simp] theorem State.setDecIn_decUnknown (i m : DecIn) : (s.setDecIn i m).decUnknown = m := rfl
@[simp] theorem State.setDecIn_decResp (i m : DecIn) : (s.setDecIn i m).decResp = none := rfl
@[simp] theorem State.setDecIn_encIn (i m : DecIn) : (s.setDecIn i m).encIn = s.encIn := rfl
@[simp] theorem State.setDecIn_encUnknown (i m : DecIn) : (s.setDecIn i m).encUnknown = s.encUnknown := rfl
@[simp] theorem State.setDecIn_encResp (i m : DecIn) : (s.setDecIn i m).encResp = s.encResp := rfl

@[simp] theorem State.setEncIn_block (i m : EncIn) : (s.setEncIn i m).block = s.block := rfl
@[simp] theorem State.setEncIn_decIn (i m : EncIn) : (s.setEncIn i m).decIn = s.decIn := rfl
@[simp] theorem State.setEncIn_decUnknown (i m : EncIn) : (s.setEncIn i m).decUnknown = s.decUnknown := rfl
@[simp] theorem State.setEncIn_decResp (i m : EncIn) : (s.setEncIn i m).decResp = s.decResp := rfl
@[simp] theorem State.setEncIn_encIn (i m : EncIn) : (s.setEncIn i m).encIn = i := rfl
@[simp] theorem State.setEncIn_encUnknown (i m : EncIn) : (s.setEncIn i m).encUnknown = m := rfl
@[simp] theorem State.setEncIn_encResp (i m : EncIn) : (s.setEncIn i m).encResp = none := rfl

/-- Of two decode responses the second is on record. -/
@[simp] theorem State.setDecResp_setDecResp (o o' : DecOut) : (s.setDecResp o).setDecResp o' = s.setDecResp o' := rfl

/-- Of two encode responses the second is on record. -/
@[simp] theorem State.setEncResp_setEncResp (o o' : EncOut) : (s.setEncResp o).setEncResp o' = s.setEncResp o' := rfl

end Sys2Proof.Machine
end

