-- ==== Sys2Proof/Laws/Operands.lean ====
section
/-! SUPPORT. What the operand forms give: the effective length, the order bit, and each payload width assembled and rendered
byte by byte. -/

namespace Sys2Proof.Machine

theorem effLen_le (len : Count) : effLen len ≤ 9 := by unfold effLen; split <;> omega

theorem effLen_of_lt {len : Count} (h : len.toNat < 9) : effLen len = len.toNat := by unfold effLen; split <;> omega

theorem effLen_of_ge {len : Count} (h : 9 ≤ len.toNat) : effLen len = 9 := by simp [effLen, h]

theorem effLen_eq_zero_iff (len : Count) : effLen len = 0 ↔ len = 0 := by revert len; decide

/-- A bound up to 9 holds of the effective length exactly when it holds of `dec_len`. -/
theorem le_effLen_iff {k : Nat} (hk : k ≤ 9) (len : Count) : k ≤ effLen len ↔ k ≤ len.toNat := by
  unfold effLen; split <;> omega

@[simp] theorem orderOfBit_orderBit (o : ByteOrder) : orderOfBit (orderBit o) = o := by cases o <;> rfl

theorem width_mem (c : SizeClass) : c.width ∈ [0, 2, 4, 8] := by cases c <;> decide

/-- A little-endian payload read from index `i` on is the payload read from 0, shifted by `i` bytes. -/
theorem assembleFrom_little (w : Nat) (p : List Byte) (i : Nat) :
    assembleFrom .littleEndian w i p = assembleFrom .littleEndian p.length 0 p <<< (8 * i) := by
  induction p generalizing w i with
  | nil => simp [assembleFrom]
  | cons b bs ih =>
    simp only [assembleFrom, payloadShift]
    rw [ih w (i + 1), ih _ (0 + 1), BitVec.shiftLeft_or_distrib, ← BitVec.shiftLeft_add, ← BitVec.shiftLeft_add]
    congr 2 <;> omega

/-- The first byte of a little-endian payload is the least significant (R43). -/
theorem assemble_little_cons (b : Byte) (bs : List Byte) :
    assemble .littleEndian (b :: bs) = zext64 b ||| (assemble .littleEndian bs <<< 8) := by
  simp only [assemble, assembleFrom, payloadShift]
  rw [assembleFrom_little _ bs (0 + 1)]
  simp

/-- The last byte of a little-endian payload is the most significant (R43). -/
theorem assemble_little_concat (bs : List Byte) (b : Byte) :
    assemble .littleEndian (bs ++ [b]) = assemble .littleEndian bs ||| (zext64 b <<< (8 * bs.length)) := by
  induction bs with
  | nil => simp [assemble, assembleFrom, payloadShift]
  | cons c cs ih =>
    rw [List.cons_append, assemble_little_cons, ih, assemble_little_cons, BitVec.shiftLeft_or_distrib,
      ← BitVec.shiftLeft_add, BitVec.or_assoc]
    simp [Nat.mul_add]

theorem assembleFrom_big (p : List Byte) (i w : Nat) (hw : w = i + p.length) :
    assembleFrom .bigEndian w i p = assemble .littleEndian p.reverse := by
  induction p generalizing i with
  | nil => rfl
  | cons b bs ih =>
    rw [List.length_cons] at hw
    rw [assembleFrom, ih (i + 1) (by omega), List.reverse_cons, assemble_little_concat, BitVec.or_comm]
    simp only [payloadShift, List.length_reverse]
    congr 3; omega

/-- A big-endian payload is the little-endian payload of the reversed bytes. -/
theorem assemble_big (p : List Byte) : assemble .bigEndian p = assemble .littleEndian p.reverse :=
  assembleFrom_big p 0 _ (by omega)

/-- Appending a low byte and zero-extending is OR with a shift. -/
theorem setWidth_append {n : Nat} (hi : BitVec n) (b : Byte) :
    (hi ++ b).setWidth 64 = zext64 b ||| (hi.setWidth 64 <<< 8) := by
  apply BitVec.eq_of_getLsbD_eq; intro i h
  simp [zext64, BitVec.getLsbD_append, h]
  by_cases h8 : i < 8 <;> simp [h8]; grind

/-- Eight payload bytes, side by side. -/
theorem assemble_little_eight (a b c d e f g h : Byte) :
    assemble .littleEndian [a, b, c, d, e, f, g, h] = (h ++ g ++ f ++ e ++ d ++ c ++ b ++ a : BitVec 64) := by
  have e : (h ++ g ++ f ++ e ++ d ++ c ++ b ++ a).setWidth 64 = h ++ g ++ f ++ e ++ d ++ c ++ b ++ a :=
    BitVec.setWidth_eq _
  rw [← e]
  simp only [setWidth_append, assemble_little_cons]
  simp [assemble, assembleFrom, zext64]

/-- Two payload bytes, side by side. -/
theorem assemble_little_two (a b : Byte) : assemble .littleEndian [a, b] = (b ++ a).setWidth 64 := by
  simp only [setWidth_append, assemble_little_cons]
  simp [assemble, assembleFrom, zext64]

/-- Four payload bytes, side by side. -/
theorem assemble_little_four (a b c d : Byte) :
    assemble .littleEndian [a, b, c, d] = (d ++ c ++ b ++ a).setWidth 64 := by
  simp only [setWidth_append, assemble_little_cons]
  simp [assemble, assembleFrom, zext64]

/-- Rendering in LittleEndian takes the low byte, then renders the rest. -/
theorem render_succ (v : Value) (w : Nat) : render .littleEndian v (w + 1) = byteAt v 0 :: render .littleEndian (v >>> 8) w := by
  simp [render, payloadShift, List.range_succ_eq_map, byteAt]
  intro a _
  apply BitVec.eq_of_getLsbD_eq; intro i h
  simp [h]; congr 1; omega

/-- The two renderings of a value are each other's reversal. -/
theorem render_big (v : Value) (w : Nat) : render .bigEndian v w = (render .littleEndian v w).reverse := by
  apply List.ext_getElem <;> simp [render, payloadShift]

/-- Assemble inverts Render in LittleEndian for a value that fits the width. -/
theorem assemble_render_little (w : Nat) (v : Value) (h : v.toNat < 2 ^ (8 * w)) :
    assemble .littleEndian (render .littleEndian v w) = v := by
  induction w generalizing v with
  | zero =>
    have h0 : v = 0 := BitVec.eq_of_toNat_eq (by simpa using h)
    subst h0; rfl
  | succ w ih =>
    rw [render_succ, assemble_little_cons, ih]
    · apply BitVec.eq_of_getLsbD_eq; intro i hi
      simp [zext64, byteAt, hi]
      by_cases h8 : i < 8 <;> simp [h8]
      rw [Nat.add_sub_cancel' (by omega), BitVec.getLsbD_eq_getElem hi]
    · rw [BitVec.toNat_ushiftRight, Nat.shiftRight_eq_div_pow]
      have : 2 ^ (8 * (w + 1)) = 2 ^ (8 * w) * 2 ^ 8 := by rw [← pow_add]; congr 1
      rw [Nat.div_lt_iff_lt_mul (by decide)]; omega

/-- Assemble inverts Render for a value that fits the width (R66). -/
theorem assemble_render (o : ByteOrder) (w : Nat) (v : Value) (h : v.toNat < 2 ^ (8 * w)) :
    assemble o (render o v w) = v := by
  cases o
  · exact assemble_render_little w v h
  · rw [assemble_big, render_big, List.reverse_reverse, assemble_render_little w v h]

/-- Bit `j` of payload byte `i` is bit `8i + j` of the assembled value (R66). -/
theorem assemble_little_bit (p : List Byte) (i j : Nat) (hj : j < 8) (h : 8 * i + j < 64) :
    (assemble .littleEndian p).getLsbD (8 * i + j) = (p.getD i 0).getLsbD j := by
  induction p generalizing i with
  | nil => simp [assemble, assembleFrom]
  | cons b bs ih =>
    rw [assemble_little_cons, BitVec.getLsbD_or, BitVec.getLsbD_shiftLeft]
    cases i with
    | zero =>
      simp [zext64, hj]; omega
    | succ i =>
      have := ih i (by omega)
      rw [show 8 * (i + 1) + j - 8 = 8 * i + j by omega, this]
      have h1 : ¬ (8 * (i + 1) + j < 8) := by omega
      simp [zext64, h, h1]
      intro h'; rw [BitVec.getLsbD_of_ge _ _ (by omega)] at h'; cases h'

/-- Render inverts Assemble in LittleEndian for up to eight bytes. -/
theorem render_assemble_little (p : List Byte) (h : p.length ≤ 8) :
    render .littleEndian (assemble .littleEndian p) p.length = p := by
  apply List.ext_getElem
  · simp [render]
  · intro i h1 h2
    simp only [render, payloadShift, List.getElem_map, List.getElem_range, byteAt]
    apply BitVec.eq_of_getLsbD_eq; intro j hj
    rw [BitVec.getLsbD_extractLsb', assemble_little_bit _ _ _ hj (by omega)]
    simp [hj, h2]

/-- Render inverts Assemble for up to eight bytes (R66). -/
theorem render_assemble (o : ByteOrder) (p : List Byte) (h : p.length ≤ 8) : render o (assemble o p) p.length = p := by
  cases o
  · exact render_assemble_little p h
  · rw [render_big, assemble_big]
    have := render_assemble_little p.reverse (by simpa using h)
    rw [List.length_reverse] at this
    rw [this, List.reverse_reverse]

end Sys2Proof.Machine
end

