-- ==== Sys2Proof/Laws/Lanes.lean ====
section
/-! SUPPORT. What the lane accesses answer: every lane below 9 is there, the payload lanes are read in order, and nine bytes
written replace all nine lanes. -/

namespace Sys2Proof.Machine

theorem readLane_of_lt (b : Lanes) {k : Nat} (h : k < 9) : readLane b k = some b[k] := by
  simp [readLane, h]

theorem readLane_eq_none_iff (b : Lanes) (k : Nat) : readLane b k = none ↔ 9 ≤ k := by
  simp [readLane]

theorem writeLane_of_lt (b : Lanes) {k : Nat} (h : k < 9) (x : Byte) : writeLane b k x = some (b.set k x) := by
  simp [writeLane, h]

theorem writeLane_eq_none_iff (b : Lanes) (k : Nat) (x : Byte) : writeLane b k x = none ↔ 9 ≤ k := by
  simp [writeLane]

/-- The payload lanes of a form are read in order and all exist (R41). -/
theorem readLanes_payload (b : Lanes) (c : SizeClass) :
    readLanes b 1 c.width = some ((b.toList.drop 1).take c.width) := by
  obtain ⟨⟨l⟩, hl⟩ := b
  simp at hl
  match l, hl with
  | [x0, x1, x2, x3, x4, x5, x6, x7, x8], _ => cases c <;> rfl

theorem render_length (o : ByteOrder) (v : Value) (w : Nat) : (render o v w).length = w := by simp [render]

theorem encodedForm_length (o : ByteOrder) (v : Value) : (encodedForm o v).length = (classOfValue v).formLength := by
  simp [encodedForm, render_length, SizeClass.formLength, Nat.add_comm]

theorem encodedLanes_length (o : ByteOrder) (v : Value) : (encodedLanes o v).length = 9 := by
  rw [encodedLanes, List.length_append, encodedForm_length, List.length_replicate]
  cases classOfValue v <;> rfl

/-- Writing nine bytes from lane 0 drives every lane, whatever it held (R31). -/
theorem writeLanes_nine (b : Lanes) (l : List Byte) (h : l.length = 9) : writeLanes b 0 l = some (lanesOfBytes l) := by
  match l, h with
  | [x0, x1, x2, x3, x4, x5, x6, x7, x8], _ =>
    obtain ⟨⟨m⟩, hm⟩ := b
    simp at hm
    match m, hm with
    | [y0, y1, y2, y3, y4, y5, y6, y7, y8], _ => rfl

/-- The payload lanes of a Small form. -/
theorem payload_two (b : Lanes) : (b.toList.drop 1).take 2 = [b[1], b[2]] := by
  obtain ⟨⟨l⟩, hl⟩ := b
  simp at hl
  match l, hl with
  | [x0, x1, x2, x3, x4, x5, x6, x7, x8], _ => rfl

/-- The payload lanes of a Medium form. -/
theorem payload_four (b : Lanes) : (b.toList.drop 1).take 4 = [b[1], b[2], b[3], b[4]] := by
  obtain ⟨⟨l⟩, hl⟩ := b
  simp at hl
  match l, hl with
  | [x0, x1, x2, x3, x4, x5, x6, x7, x8], _ => rfl

/-- The payload lanes of a Large form. -/
theorem payload_eight (b : Lanes) :
    (b.toList.drop 1).take 8 = [b[1], b[2], b[3], b[4], b[5], b[6], b[7], b[8]] := by
  obtain ⟨⟨l⟩, hl⟩ := b
  simp at hl
  match l, hl with
  | [x0, x1, x2, x3, x4, x5, x6, x7, x8], _ => rfl

/-- Lane `k` of a byte sequence laid on nine lanes is its byte `k`, or 0x00 past its end (R75). -/
theorem lanesOfBytes_getElem (l : List Byte) (k : Nat) (h : k < 9) : (lanesOfBytes l)[k] = l.getD k 0 := by
  interval_cases k <;> rfl

/-- Nine bytes laid on nine lanes are read back as they are. -/
theorem lanesOfBytes_toList (l : List Byte) (h : l.length = 9) : (lanesOfBytes l).toList = l := by
  match l, h with
  | [x0, x1, x2, x3, x4, x5, x6, x7, x8], _ => rfl

end Sys2Proof.Machine
end

