-- ==== Sys2Proof/Laws/Requests.lean ====
section
/-! SUPPORT. Everything a request can do, said once: it is refused when an input bit is unknown, and otherwise it ends with a
result that is a function of its own inputs. -/

namespace Sys2Proof.Machine

/-- The result of the decode function from its prefix on, as a function of the inputs (R83). -/
def formResult (o : ByteOrder) (p : Byte) (d : DecIn) : DecResult :=
  if effLen d.len < (classOfPrefix p).formLength then .truncated (classOfPrefix p).formLength (effLen d.len)
  else if (classOfPrefix p).width = 0 then .ok (zext64 p) 1
  else .ok (assemble o ((d.buf.toList.drop 1).take (classOfPrefix p).width)) (classOfPrefix p).formLength

/-- The result of the decode function, as a function of the inputs (R83). -/
def decodeResult (o : ByteOrder) (d : DecIn) : DecResult :=
  if effLen d.len = 0 then .empty else formResult o d.buf[0] d

/-- The result of a wire prefix, as a function of the inputs (R64, R83). -/
def prefixResult (p : Byte) (d : DecIn) : DecResult :=
  if effLen d.len = 0 then .empty else formResult (orderOfBit d.order) p d

/-- A decode with a valid byte goes on from its prefix. -/
theorem decodeResult_pos {o : ByteOrder} {d : DecIn} (h : 1 ≤ effLen d.len) :
    decodeResult o d = formResult o d.buf[0] d := by
  rw [decodeResult, if_neg (by omega)]

/-- Fewer valid bytes than the form needs. -/
theorem formResult_short {o : ByteOrder} {p : Byte} {d : DecIn} (h : effLen d.len < (classOfPrefix p).formLength) :
    formResult o p d = .truncated (classOfPrefix p).formLength (effLen d.len) := by
  rw [formResult, if_pos h]

/-- A Tiny form. -/
theorem formResult_tiny {o : ByteOrder} {p : Byte} {d : DecIn} (hc : classOfPrefix p = .tiny) (h : 1 ≤ effLen d.len) :
    formResult o p d = .ok (zext64 p) 1 := by
  have hw : (classOfPrefix p).width = 0 := by rw [hc]; rfl
  rw [formResult, SizeClass.formLength, hw, if_neg (by omega), if_pos rfl]

/-- A complete Small form. -/
theorem formResult_small {o : ByteOrder} {p : Byte} {d : DecIn} (hc : classOfPrefix p = .small) (h : 3 ≤ effLen d.len) :
    formResult o p d = .ok (assemble o [d.buf[1], d.buf[2]]) 3 := by
  have hw : (classOfPrefix p).width = 2 := by rw [hc]; rfl
  rw [formResult, SizeClass.formLength, hw, payload_two, if_neg (by omega), if_neg (by decide)]

/-- A complete Medium form. -/
theorem formResult_medium {o : ByteOrder} {p : Byte} {d : DecIn} (hc : classOfPrefix p = .medium)
    (h : 5 ≤ effLen d.len) : formResult o p d = .ok (assemble o [d.buf[1], d.buf[2], d.buf[3], d.buf[4]]) 5 := by
  have hw : (classOfPrefix p).width = 4 := by rw [hc]; rfl
  rw [formResult, SizeClass.formLength, hw, payload_four, if_neg (by omega), if_neg (by decide)]

/-- A complete Large form. -/
theorem formResult_large {o : ByteOrder} {p : Byte} {d : DecIn} (hc : classOfPrefix p = .large) (h : 9 ≤ effLen d.len) :
    formResult o p d = .ok (assemble o
      [d.buf[1], d.buf[2], d.buf[3], d.buf[4], d.buf[5], d.buf[6], d.buf[7], d.buf[8]]) 9 := by
  have hw : (classOfPrefix p).width = 8 := by rw [hc]; rfl
  rw [formResult, SizeClass.formLength, hw, payload_eight, if_neg (by omega), if_neg (by decide)]

/-- The outputs the encoder drives for a value (R100): the nine lanes and the length of the form. -/
def encodeResult (o : ByteOrder) (v : Value) : EncOut :=
  ⟨lanesOfBytes (encodedLanes o v), BitVec.ofNat 4 (classOfValue v).formLength⟩

theorem decodeForm_eq (o : ByteOrder) (p : Byte) (d : DecIn) :
    decodeForm o p d = some (DecOut.ofResult (formResult o p d)) := by
  simp only [decodeForm, formResult, readLanes_payload, raiseTruncated, returnOk]
  split <;> [rfl; (split <;> rfl)]

/-- The decode function is total (R34, R83). -/
theorem decodeFunction_eq (o : ByteOrder) (d : DecIn) :
    decodeFunction o d = some (DecOut.ofResult (decodeResult o d)) := by
  simp only [decodeFunction, decodeResult, readLane_of_lt _ (show 0 < 9 by decide), decodeForm_eq, raiseEmpty]
  split <;> rfl

theorem prefixFunction_eq (p : Byte) (d : DecIn) :
    prefixFunction p d = some (DecOut.ofResult (prefixResult p d)) := by
  simp only [prefixFunction, prefixResult, decodeForm_eq, raiseEmpty]
  split <;> rfl

/-- The encode function is total (R34, R105). -/
theorem encodeFunction_eq (o : ByteOrder) (v : Value) : encodeFunction o v = some (encodeResult o v) := by
  simp only [encodeFunction, writeLanes_nine _ _ (encodedLanes_length _ _), encodeResult]

/-! The output ports: what they carry, and what does not change them. -/

theorem State.decOut_eq (s : State) : s.decOut =
    if s.DecKnown then some (DecOut.ofResult (decodeResult (orderOfBit s.decIn.order) s.decIn)) else none := by
  rw [State.decOut, decodeFunction_eq]

theorem State.encOut_eq (s : State) : s.encOut =
    if s.EncKnown then some (encodeResult (orderOfBit s.encIn.order) s.encIn.value) else none := by
  rw [State.encOut, encodeFunction_eq]

@[simp] theorem State.setDecResp_decOut (s : State) (r : DecOut) : (s.setDecResp r).decOut = s.decOut := rfl
@[simp] theorem State.setDecResp_encOut (s : State) (r : DecOut) : (s.setDecResp r).encOut = s.encOut := rfl
@[simp] theorem State.setEncResp_decOut (s : State) (r : EncOut) : (s.setEncResp r).decOut = s.decOut := rfl
@[simp] theorem State.setEncResp_encOut (s : State) (r : EncOut) : (s.setEncResp r).encOut = s.encOut := rfl
@[simp] theorem State.setBlock_decOut (s : State) (b : Block) : (s.setBlock b).decOut = s.decOut := rfl
@[simp] theorem State.setBlock_encOut (s : State) (b : Block) : (s.setBlock b).encOut = s.encOut := rfl
@[simp] theorem State.setDecIn_encOut (s : State) (i m : DecIn) : (s.setDecIn i m).encOut = s.encOut := rfl
@[simp] theorem State.setEncIn_decOut (s : State) (i m : EncIn) : (s.setEncIn i m).decOut = s.decOut := rfl

/-! The requests. -/

theorem decodeRequest_eq (o : ByteOrder) (s : State) :
    decodeRequest o s = if s.DecKnown then .next (s.setDecResp (DecOut.ofResult (decodeResult o s.decIn)))
      else .refused .unknownInput := by
  simp only [decodeRequest, serveDecode, decodeFunction_eq]

theorem prefixRequest_eq (p : Byte) (s : State) :
    prefixRequest p s = if s.DecKnown then .next (s.setDecResp (DecOut.ofResult (prefixResult p s.decIn)))
      else .refused .unknownInput := by
  simp only [prefixRequest, serveDecode, prefixFunction_eq]

theorem encodeRequest_eq (o : ByteOrder) (s : State) :
    encodeRequest o s = if s.EncKnown then .next (s.setEncResp (encodeResult o s.encIn.value))
      else .refused .unknownInput := by
  simp only [encodeRequest, serveEncode, encodeFunction_eq]

/-- Every instruction the decoder runs: refused, or a response that depends on the decoder's inputs only. -/
theorem exec_decoder (i : Instr) (hi : blockOf i = .decoder) :
    ∃ f : DecIn → DecResult, ∀ s : State,
      exec i s = if s.DecKnown then .next (s.setDecResp (DecOut.ofResult (f s.decIn))) else .refused .unknownInput := by
  cases i with
  | encodeLE => cases hi
  | encodeBE => cases hi
  | decodeLE => exact ⟨_, decodeRequest_eq .littleEndian⟩
  | decodeBE => exact ⟨_, decodeRequest_eq .bigEndian⟩
  | prefixTiny00 v => exact ⟨_, prefixRequest_eq _⟩
  | prefixTiny80 v => exact ⟨_, prefixRequest_eq _⟩
  | prefixTinyC0 v => exact ⟨_, prefixRequest_eq _⟩
  | prefixTinyE0 v => exact ⟨_, prefixRequest_eq _⟩
  | prefixTinyF0 v => exact ⟨_, prefixRequest_eq _⟩
  | prefixTinyF8 v => exact ⟨_, prefixRequest_eq _⟩
  | prefixTinyFC => exact ⟨_, prefixRequest_eq _⟩
  | prefixSmall => exact ⟨_, prefixRequest_eq _⟩
  | prefixMedium => exact ⟨_, prefixRequest_eq _⟩
  | prefixLarge => exact ⟨_, prefixRequest_eq _⟩

/-- DECODE.LE and DECODE.BE are the decode function in their order (R84, R85). -/
theorem exec_decodeOf (o : ByteOrder) (s : State) :
    exec (decodeOf o) s = if s.DecKnown then .next (s.setDecResp (DecOut.ofResult (decodeResult o s.decIn)))
      else .refused .unknownInput := by
  cases o <;> exact decodeRequest_eq _ s

/-- ENCODE.LE and ENCODE.BE are the encode function in their order (R103, R104). -/
theorem exec_encodeOf (o : ByteOrder) (s : State) :
    exec (encodeOf o) s = if s.EncKnown then .next (s.setEncResp (encodeResult o s.encIn.value))
      else .refused .unknownInput := by
  cases o <;> exact encodeRequest_eq _ s

/-- An instruction the encoder runs is ENCODE.LE or ENCODE.BE. -/
theorem encoder_cases (i : Instr) (hi : blockOf i = .encoder) : ∃ o, i = encodeOf o := by
  cases i <;> first | exact ⟨.littleEndian, rfl⟩ | exact ⟨.bigEndian, rfl⟩ | cases hi

/-- A known decode request is answered with the result of its inputs. -/
theorem exec_decodeOf_known {o : ByteOrder} {s : State} (h : s.DecKnown) :
    exec (decodeOf o) s = .next (s.setDecResp (DecOut.ofResult (decodeResult o s.decIn))) := by
  rw [exec_decodeOf, if_pos h]

/-- A known encode request is answered with the nine lanes of its value's form and that form's length. -/
theorem exec_encodeOf_known {o : ByteOrder} {s : State} (h : s.EncKnown) :
    exec (encodeOf o) s = .next (s.setEncResp (encodeResult o s.encIn.value)) := by
  rw [exec_encodeOf, if_pos h]

/-- A decode operation that answers: the inputs were known, and its result was returned. -/
theorem exec_decodeOf_next {o : ByteOrder} {s t : State} (h : exec (decodeOf o) s = .next t) :
    s.DecKnown ∧ t = s.setDecResp (DecOut.ofResult (decodeResult o s.decIn)) := by
  rw [exec_decodeOf] at h
  split at h
  · next hk => exact ⟨hk, by cases h; rfl⟩
  · cases h

/-- An encode operation that answers: the inputs were known, and the nine lanes and the length were returned. -/
theorem exec_encodeOf_next {o : ByteOrder} {s t : State} (h : exec (encodeOf o) s = .next t) :
    s.EncKnown ∧ t = s.setEncResp (encodeResult o s.encIn.value) := by
  rw [exec_encodeOf] at h
  split at h
  · next hk => exact ⟨hk, by cases h; rfl⟩
  · cases h

/-- The prefix byte of a value's form selects the value's class (R100). -/
theorem classOfPrefix_prefixOfValue (v : Value) : classOfPrefix (prefixOfValue v) = classOfValue v := by
  unfold prefixOfValue
  split <;> rename_i h
  · have hv : v.toNat ≤ 252 := by
      by_contra hn
      unfold classOfValue tinyMax at h
      rw [if_neg hn] at h
      split at h <;> [cases h; (split at h <;> cases h)]
    rw [h, classOfPrefix, if_pos]
    rw [BitVec.extractLsb'_toNat]
    exact le_trans (Nat.mod_le _ _) (by simpa using hv)
  all_goals rw [h]; decide

/-- A step is the operation of the block asked, in the order on that block's order port (R69). -/
theorem step_eq (s : State) :
    step s = match s.block with
      | .decoder => exec (decodeOf (orderOfBit s.decIn.order)) s
      | .encoder => exec (encodeOf (orderOfBit s.encIn.order)) s := by
  have one : ∀ b : BitVec 1, b = 0 ∨ b = 1 := by decide
  cases hb : s.block
  · rcases one s.decIn.order with h | h <;>
      simp only [step, fetchOperation, State.selector, State.orderPort, hb, h] <;> rfl
  · rcases one s.encIn.order with h | h <;>
      simp only [step, fetchOperation, State.selector, State.orderPort, hb, h] <;> rfl

end Sys2Proof.Machine
end

