-- ==== Sys2Proof/Laws/Decode.lean ====
section
/-! SUPPORT. What the wire-prefix decoder answers, for all 256 bytes, and what running the answer does. -/

namespace Sys2Proof.Machine

/-- The wire prefix decoded from a byte has that byte. -/
theorem prefixByteOf_decodePrefix : ∀ p : Byte, prefixByteOf (decodePrefix p) = p := by decide

/-- The table's masks and the ranges of R64 select the same class. -/
theorem formClass_decodePrefix : ∀ p : Byte, (decodePrefix p).formClass = some (classOfPrefix p) := by decide

/-- A wire prefix is read by the decoder. -/
theorem blockOf_decodePrefix : ∀ p : Byte, blockOf (decodePrefix p) = .decoder := by decide

/-- A wire prefix runs as the decoder's request with its byte. -/
theorem exec_of_formClass {i : Instr} (h : i.formClass.isSome = true) (s : State) :
    exec i s = prefixRequest (prefixByteOf i) s := by
  cases i <;> first | rfl | cases h

/-- Running the wire prefix decoded from a byte is the decoder's request with that byte. -/
theorem exec_decodePrefix (p : Byte) (s : State) : exec (decodePrefix p) s = prefixRequest p s := by
  rw [exec_of_formClass (by rw [formClass_decodePrefix]; rfl), prefixByteOf_decodePrefix]

end Sys2Proof.Machine
end

