-- ==== Sys2Proof/Laws/PerInstr.lean ====
section
/-! SUPPORT. The family of statements made per instruction: its code word is a word of its own row of the opcode table, of
no other row, and decodes to it. -/

namespace Sys2Proof.Laws

/-- The instruction's code word matches its own row of spec/opcode_table.json and no other, and the decoder reads the
instruction back from it with every argument (R64, R69). -/
def Encoding.Statement (i : Instr) : Prop :=
  (opcodeTable.filter fun r => r.holds (encode i)).map (·.mnemonic) = [i.mnemonic] ∧ decodeWord (encode i) = i

theorem Encoding.decodeLE : Encoding.Statement .decodeLE := by unfold Encoding.Statement; decide

theorem Encoding.decodeBE : Encoding.Statement .decodeBE := by unfold Encoding.Statement; decide

theorem Encoding.encodeLE : Encoding.Statement .encodeLE := by unfold Encoding.Statement; decide

theorem Encoding.encodeBE : Encoding.Statement .encodeBE := by unfold Encoding.Statement; decide

theorem Encoding.prefixTiny00 (v : BitVec 7) : Encoding.Statement (.prefixTiny00 v) := by
  unfold Encoding.Statement; revert v; decide

theorem Encoding.prefixTiny80 (v : BitVec 6) : Encoding.Statement (.prefixTiny80 v) := by
  unfold Encoding.Statement; revert v; decide

theorem Encoding.prefixTinyC0 (v : BitVec 5) : Encoding.Statement (.prefixTinyC0 v) := by
  unfold Encoding.Statement; revert v; decide

theorem Encoding.prefixTinyE0 (v : BitVec 4) : Encoding.Statement (.prefixTinyE0 v) := by
  unfold Encoding.Statement; revert v; decide

theorem Encoding.prefixTinyF0 (v : BitVec 3) : Encoding.Statement (.prefixTinyF0 v) := by
  unfold Encoding.Statement; revert v; decide

theorem Encoding.prefixTinyF8 (v : BitVec 2) : Encoding.Statement (.prefixTinyF8 v) := by
  unfold Encoding.Statement; revert v; decide

theorem Encoding.prefixTinyFC : Encoding.Statement .prefixTinyFC := by unfold Encoding.Statement; decide

theorem Encoding.prefixSmall : Encoding.Statement .prefixSmall := by unfold Encoding.Statement; decide

theorem Encoding.prefixMedium : Encoding.Statement .prefixMedium := by unfold Encoding.Statement; decide

theorem Encoding.prefixLarge : Encoding.Statement .prefixLarge := by unfold Encoding.Statement; decide

end Sys2Proof.Laws
end

