-- ==== Sys2Proof/Tests/Slice0.lean ====
section
/-! SUPPORT. The model's own tests. Expected results are the spec's: the tables of spec/95_test_vectors.md (S1-S7, D1-D13,
E1-E8, N1-N5), the corner cases of R84, R85, R103, R104, and the bit patterns of opcode_table.json. The witnesses show that
the hypotheses of each statement can be met, clause by clause. -/

namespace Sys2Proof.Tests

open Sys2Proof Sys2Proof.Machine

/-! ### Helpers -/

/-- A decode request on the ports: bytes from lane 0 on, `dec_len`, `dec_order`. -/
def decState (bytes : List Byte) (len : Count) (order : BitVec 1 := 0) : State :=
  State.reset.setDecIn ⟨lanesOfBytes bytes, len, order⟩ DecIn.zeros

/-- An encode request on the ports. -/
def encState (v : Value) (order : BitVec 1 := 0) : State :=
  (State.reset.setBlock .encoder).setEncIn ⟨v, order⟩ EncIn.zeros

/-- A decode request with one unknown bit of `dec_len`. -/
def decUnknownState : State := State.reset.setDecIn DecIn.zeros ⟨Lanes.zeros, 1, 0⟩

/-- An encode request with one unknown bit of `enc_value`. -/
def encUnknownState : State := State.reset.setEncIn EncIn.zeros ⟨0x80, 0⟩

/-- The decoder's response after a step that answers. -/
def decOutOf : Result → Option DecOut
  | .next t => t.decResp
  | _ => none

/-- The encoded form in the encoder's response after a step that answers. -/
def formOf : Result → Option (List Byte)
  | .next t => t.encResp.map EncOut.form
  | _ => none

/-! ### Well-formedness -/

theorem test_wf_accepts_small_form : (EncodedForm.mk .prefixSmall [0xE8, 0x03]).wellFormed = true := by decide

/-- The check headIsWire refuses a form whose head is an operation. -/
theorem test_wf_refuses_operation_head :
    (EncodedForm.mk .decodeLE []).headIsWire = false ∧ (EncodedForm.mk .decodeLE []).wellFormed = false := by decide

/-- The check payloadFits refuses a payload of another width (R65). -/
theorem test_wf_refuses_short_payload :
    (EncodedForm.mk .prefixSmall [0xE8]).payloadFits = false ∧
    (EncodedForm.mk .prefixSmall [0xE8]).wellFormed = false := by decide

/-! ### Decoding: words written out bit by bit from the encodings of R64, R69 and opcode_table.json -/

theorem test_decode_selectors :
    decodeSelector 0b00#2 = .decodeLE ∧ decodeSelector 0b01#2 = .decodeBE ∧
    decodeSelector 0b10#2 = .encodeLE ∧ decodeSelector 0b11#2 = .encodeBE := by decide

theorem test_decode_tiny_rows :
    decodePrefix 0b01111111#8 = .prefixTiny00 0b1111111#7 ∧ decodePrefix 0b10111110#8 = .prefixTiny80 0b111110#6 ∧
    decodePrefix 0b11011101#8 = .prefixTinyC0 0b11101#5 ∧ decodePrefix 0b11101011#8 = .prefixTinyE0 0b1011#4 ∧
    decodePrefix 0b11110110#8 = .prefixTinyF0 0b110#3 ∧ decodePrefix 0b11111001#8 = .prefixTinyF8 0b01#2 ∧
    decodePrefix 0b11111100#8 = .prefixTinyFC := by decide

theorem test_decode_sentinel_rows :
    decodePrefix 0b11111101#8 = .prefixSmall ∧ decodePrefix 0b11111110#8 = .prefixMedium ∧
    decodePrefix 0b11111111#8 = .prefixLarge := by decide

/-- "Each of the 4 selector values and each of the 256 prefix values matches exactly one row": no two rows of one format
overlap. -/
theorem test_rows_do_not_overlap :
    opcodeTable.Pairwise fun r r' => r.format ≠ r'.format ∨
      r.pattern &&& r'.mask ≠ r'.pattern &&& r.mask := by decide

/-- A number below 4 in one byte is a selector; other numbers, and any number in two bytes, are a wire prefix
(assumption 8). -/
theorem test_table_word_formats :
    decodeTableWord 2 1 = some .decodeBE ∧ decodeTableWord 8 3 = some .encodeBE ∧
    decodeTableWord 8 4 = some (.prefixTiny00 4) ∧ decodeTableWord 16 0x03FF = some .prefixLarge ∧
    decodeTableWord 4 9 = none := by decide

/-- Byte 0 tells the length; the bytes after the form are the rest (R65). -/
theorem test_split_form :
    splitForm [0xFE, 0x70, 0x11, 0x01, 0x00, 0x2A] = .form ⟨.prefixMedium, [0x70, 0x11, 0x01, 0x00]⟩ [0x2A] ∧
    splitForm [] = .error .empty ∧ splitForm [0xFF, 1, 2, 3] = .error (.truncated 9 4) := by decide

/-! ### The bus (R14) -/

theorem test_bus_lane_order : (lanesOfBus 0x0000000000000003E8FD#72)[1] = 0xE8 := by decide

/-! ### DECODE.LE, DECODE.BE (95_test_vectors.md sections 1, 2.2, 2.3, 2.4) -/

/-- S4. -/
theorem test_decode_le_1000 :
    decOutOf (exec .decodeLE (decState [0xFD, 0xE8, 0x03] 3)) = some ⟨0, 1000, 3, 0, 0⟩ := by decide

/-- N2: a non-canonical form is accepted. -/
theorem test_decode_le_non_canonical :
    decOutOf (exec .decodeLE (decState [0xFD, 0xFF, 0xFF] 3)) = some ⟨0, 65535, 3, 0, 0⟩ := by decide

/-- D7: = 0xF7146B3A919CFFFF. -/
theorem test_decode_be_large :
    decOutOf (exec .decodeBE (decState [0xFF, 0xF7, 0x14, 0x6B, 0x3A, 0x91, 0x9C, 0xFF, 0xFF] 9)) =
      some ⟨0, 17803973126197673983, 9, 0, 0⟩ := by decide

/-- E5: Medium one byte short. -/
theorem test_decode_be_truncated :
    decOutOf (exec .decodeBE (decState [0xFE, 0x01, 0x02, 0x03] 4)) = some ⟨2, 0, 0, 5, 4⟩ := by decide

/-! ### ENCODE.LE, ENCODE.BE (sections 1 and 2.1) -/

/-- S6: value = 0xFFFF9C913A6B14F7. -/
theorem test_encode_le_large :
    formOf (exec .encodeLE (encState 18446634746297128183)) =
      some [0xFF, 0xF7, 0x14, 0x6B, 0x3A, 0x91, 0x9C, 0xFF, 0xFF] := by decide

/-- 65535 is Medium, not Small (R63). -/
theorem test_encode_le_65535 :
    formOf (exec .encodeLE (encState 65535)) = some [0xFE, 0xFF, 0xFF, 0x00, 0x00] := by decide

/-- S7. -/
theorem test_encode_be_1000 : formOf (exec .encodeBE (encState 1000)) = some [0xFD, 0x03, 0xE8] := by decide

/-- 4294967296, BE. -/
theorem test_encode_be_large_lower_bound :
    formOf (exec .encodeBE (encState 4294967296)) =
      some [0xFF, 0x00, 0x00, 0x00, 0x01, 0x00, 0x00, 0x00, 0x00] := by decide

/-! ### Wire prefixes (R64; D3, D4, D8, E7 of section 2) -/

theorem test_prefix_tiny_00 : decOutOf (exec (.prefixTiny00 0x70) (decState [] 15)) = some ⟨0, 112, 1, 0, 0⟩ := by decide

theorem test_prefix_tiny_80 : decOutOf (exec (.prefixTiny80 0x3F) (decState [] 1)) = some ⟨0, 0xBF, 1, 0, 0⟩ := by decide

theorem test_prefix_tiny_C0 : decOutOf (exec (.prefixTinyC0 0x00) (decState [] 1)) = some ⟨0, 0xC0, 1, 0, 0⟩ := by decide

theorem test_prefix_tiny_E0 : decOutOf (exec (.prefixTinyE0 0xF) (decState [] 1)) = some ⟨0, 0xEF, 1, 0, 0⟩ := by decide

theorem test_prefix_tiny_F0 : decOutOf (exec (.prefixTinyF0 5) (decState [] 1)) = some ⟨0, 0xF5, 1, 0, 0⟩ := by decide

theorem test_prefix_tiny_F8 : decOutOf (exec (.prefixTinyF8 3) (decState [] 1)) = some ⟨0, 0xFB, 1, 0, 0⟩ := by decide

theorem test_prefix_tiny_FC : decOutOf (exec .prefixTinyFC (decState [0xFC, 0xAA] 2)) = some ⟨0, 252, 1, 0, 0⟩ := by decide

/-- D8: the byte after the form is ignored. -/
theorem test_prefix_small :
    decOutOf (exec .prefixSmall (decState [0xFD, 0x12, 0x34, 0x56] 4 1)) = some ⟨0, 4660, 3, 0, 0⟩ := by decide

/-- D10. -/
theorem test_prefix_medium :
    decOutOf (exec .prefixMedium (decState [0xFE, 0x01, 0x02, 0x03, 0x04] 5)) = some ⟨0, 67305985, 5, 0, 0⟩ := by decide

/-- E7: one byte short, lane 8 not zero. -/
theorem test_prefix_large_truncated :
    decOutOf (exec .prefixLarge (decState [0xFF, 1, 2, 3, 4, 5, 6, 7, 8] 8)) = some ⟨2, 0, 0, 9, 8⟩ := by decide

/-! ### The step, reset, unknown inputs and the embedding -/

/-- From reset, a presented table word runs next: a selector, and a wire prefix with zero payload bytes. -/
theorem test_presented_words_run :
    step (State.reset.withFetchWord 8 3) = exec .encodeBE (State.reset.withFetchWord 8 3) ∧
    step (State.reset.withFetchWord 8 0xFE) = exec .prefixMedium (State.reset.withFetchWord 8 0xFE) ∧
    decOutOf (step (State.reset.withFetchWord 8 0xFE)) = some ⟨0, 0, 5, 0, 0⟩ := ⟨rfl, rfl, by decide⟩

theorem test_unknown_inputs_are_refused :
    exec .decodeLE decUnknownState = .refused .unknownInput ∧
    exec .encodeLE encUnknownState = .refused .unknownInput := ⟨rfl, rfl⟩

/-- The output ports follow the inputs at once, also of a block that no request asks, and carry nothing where an input bit is
unknown (R32, R33, R140; S4 on the decoder, S7 on the encoder). -/
theorem test_output_ports_follow_the_inputs :
    ((State.reset.setBlock .encoder).setDecIn ⟨lanesOfBytes [0xFD, 0xE8, 0x03], 3, 0⟩ DecIn.zeros).decOut =
      some ⟨0, 1000, 3, 0, 0⟩ ∧
    (State.reset.setEncIn ⟨1000, 1⟩ EncIn.zeros).encOut = some ⟨#v[0xFD, 0x03, 0xE8, 0, 0, 0, 0, 0, 0], 3⟩ ∧
    decUnknownState.decOut = none := by decide

/-- Inputs driven anew have no response before a step serves them (R142). -/
theorem test_no_response_is_left_over :
    (((decState [5] 1).setDecResp ⟨0, 5, 1, 0, 0⟩).setDecIn DecIn.zeros DecIn.zeros).decResp = none := rfl

/-- A status of 3 is refused by the embedding (R71). -/
theorem test_status_three_is_refused :
    advance ⟨State.reset.setDecResp ⟨3, 0, 0, 0, 0⟩, [], 0⟩ = .refused .statusNotDriven := rfl

/-- The model's choice (assumption 11): after EMPTY and after TRUNCATED the canonical check does not pass. -/
theorem test_canonical_check_without_a_value :
    canonicalCheck .littleEndian ((decState [] 0).setDecResp ⟨1, 0, 0, 0, 0⟩) = some false ∧
    canonicalCheck .bigEndian ((decState [0xFF] 1).setDecResp ⟨2, 0, 0, 9, 1⟩) = some false := by decide

/-- P1, step 2: at offset 1 of the buffer the lanes hold the eight bytes left and `dec_len` is 8. -/
theorem test_present_decode_at_offset :
    (State.reset.presentDecode .littleEndian [0x05, 0xFD, 0xE8, 0x03, 0xFE, 0x70, 0x11, 0x01, 0x00] 1).decIn =
      ⟨#v[0xFD, 0xE8, 0x03, 0xFE, 0x70, 0x11, 0x01, 0x00, 0x00], 8, 0⟩ := by decide

/-! ### Witnesses: the hypotheses of each statement, met together, clause by clause -/

theorem witness_StepRunsSelectedOperation :
    ((decState [] 0 0).block = .decoder ∧ (decState [] 0 0).decIn.order = 0) ∧
    ((decState [] 0 1).block = .decoder ∧ (decState [] 0 1).decIn.order = 1) ∧
    ((encState 0 0).block = .encoder ∧ (encState 0 0).encIn.order = 0) ∧
    ((encState 0 1).block = .encoder ∧ (encState 0 1).encIn.order = 1) := by decide

theorem witness_StepRunsWirePrefixOnLaneZero :
    (decState [0xFD] 1).block = .decoder ∧ (decState [0xFD] 1).decIn.len ≠ 0 := by decide

theorem witness_PresentedWordRunsNext :
    decodeTableWord 8 1 = some .decodeBE ∧ blockOf .decodeBE = .decoder ∧
    decodeTableWord 8 3 = some .encodeBE ∧ blockOf .encodeBE = .encoder ∧
    decodeTableWord 8 255 = some .prefixLarge ∧ blockOf .prefixLarge = .decoder := by decide

theorem witness_FormBytesReadBack :
    (EncodedForm.mk (.prefixTiny00 0) []).wellFormed = true ∧
    (EncodedForm.mk .prefixLarge [1, 2, 3, 4, 5, 6, 7, 8]).wellFormed = true ∧
    splitForm [0xFD, 0x01, 0x02, 0x03] = .form ⟨.prefixSmall, [0x01, 0x02]⟩ [0x03] := by decide

theorem witness_LaneReadAfterWrite :
    writeLane Lanes.zeros 8 0xAA = some (#v[0, 0, 0, 0, 0, 0, 0, 0, 0xAA]) ∧ (7 : Nat) ≠ 8 ∧
    writeLane Lanes.zeros 9 0xAA = none := by decide

theorem witness_DecodeEmptyWhenNoByte :
    (decState [0x7F] 0).DecKnown ∧ (decState [0x7F] 0).decIn.len = 0 ∧
    ∃ t d, exec (decodeOf .bigEndian) (decState [0x7F] 0) = .next t ∧ t.decResp = some d ∧ d.status = 1 :=
  ⟨rfl, rfl, _, _, rfl, rfl, rfl⟩

theorem witness_DecodeTruncatedWhenShort :
    (decState [0xFD] 1).DecKnown ∧ (decState [0xFD] 1).decIn.buf[0] = 0xFD ∧
    (decState [0xFD] 2).decIn.len.toNat < 3 ∧
    (decState [0xFE] 1).DecKnown ∧ (decState [0xFE] 1).decIn.buf[0] = 0xFE ∧
    (decState [0xFE] 4).decIn.len.toNat < 5 ∧
    (decState [0xFF] 1).DecKnown ∧ (decState [0xFF] 1).decIn.buf[0] = 0xFF ∧
    (decState [0xFF] 8).decIn.len.toNat < 9 ∧
    ∃ t d, exec (decodeOf .littleEndian) (decState [0xFF] 8) = .next t ∧ t.decResp = some d ∧ d.status = 2 :=
  ⟨rfl, rfl, by decide, rfl, rfl, by decide, rfl, rfl, by decide, _, _, rfl, rfl, rfl⟩

theorem witness_DecodeLittleEndianValue :
    (decState [0xFC] 1).DecKnown ∧ (decState [0xFC] 1).decIn.buf[0].toNat ≤ 252 ∧
    1 ≤ (decState [0xFC] 1).decIn.len.toNat ∧
    (decState [0xFD] 3).decIn.buf[0] = 0xFD ∧ 3 ≤ (decState [0xFD] 3).decIn.len.toNat ∧
    (decState [0xFE] 5).decIn.buf[0] = 0xFE ∧ 5 ≤ (decState [0xFE] 5).decIn.len.toNat ∧
    (decState [0xFF] 9).decIn.buf[0] = 0xFF ∧ 9 ≤ (decState [0xFF] 9).decIn.len.toNat := by decide

theorem witness_DecodeBigEndianValue :
    (decState [0xFC] 1 1).DecKnown ∧ (decState [0xFC] 1 1).decIn.buf[0].toNat ≤ 252 ∧
    1 ≤ (decState [0xFC] 1 1).decIn.len.toNat ∧
    (decState [0xFD] 3 1).decIn.buf[0] = 0xFD ∧ 3 ≤ (decState [0xFD] 3 1).decIn.len.toNat ∧
    (decState [0xFE] 5 1).decIn.buf[0] = 0xFE ∧ 5 ≤ (decState [0xFE] 5 1).decIn.len.toNat ∧
    (decState [0xFF] 9 1).decIn.buf[0] = 0xFF ∧ 9 ≤ (decState [0xFF] 9 1).decIn.len.toNat := by decide

theorem witness_TinyPrefixesAnswerTheirByte :
    (decState [] 1).DecKnown ∧ 1 ≤ (decState [] 1).decIn.len.toNat := by decide

theorem witness_SentinelPrefixesAnswerPayload :
    (decState [] 3 0).DecKnown ∧ (decState [] 3 1).DecKnown ∧ 3 ≤ (decState [] 3 1).decIn.len.toNat ∧
    5 ≤ (decState [] 5).decIn.len.toNat ∧ 9 ≤ (decState [] 9).decIn.len.toNat := by decide

theorem witness_PrefixesEndShortForms :
    (decState [] 1).DecKnown ∧ 1 ≤ (decState [] 1).decIn.len.toNat ∧ (decState [] 2).decIn.len.toNat < 3 ∧
    (decState [] 4).decIn.len.toNat < 5 ∧ (decState [] 8).decIn.len.toNat < 9 ∧ (decState [] 0).decIn.len = 0 := by decide

/-- The Large prefix with the non-canonical value 1 (N5), in BigEndian. -/
theorem witness_DecodeAcceptsEveryPayloadValue :
    ∃ s : State, s.DecKnown ∧ SizeClass.large ≠ .tiny ∧ (1 : Value).toNat < 2 ^ (8 * SizeClass.large.width) ∧
      classOfPrefix s.decIn.buf[0] = .large ∧ SizeClass.large.formLength ≤ s.decIn.len.toNat ∧
      ∀ (i : Nat) (h : 1 + i < 9), i < SizeClass.large.width →
        s.decIn.buf[1 + i] = (1 : Value).extractLsb' (8 * (SizeClass.large.width - 1 - i)) 8 :=
  ⟨decState [0xFF, 0, 0, 0, 0, 0, 0, 0, 1] 9, rfl, by decide, by decide, by decide, by decide, fun i _ hi => by
    change i < 8 at hi
    interval_cases i <;> rfl⟩

theorem witness_DecodeUsesEffectiveLength :
    blockOf .prefixSmall = .decoder ∧ (decState [] 9).DecKnown ∧
    (9 ≤ (15 : Count).toNat → 9 ≤ (decState [] 9).decIn.len.toNat) ∧
    ((15 : Count).toNat < 9 → (decState [] 9).decIn.len = 15) ∧
    (9 ≤ (8 : Count).toNat → 9 ≤ (decState [] 8).decIn.len.toNat) ∧
    ((8 : Count).toNat < 9 → (decState [] 8).decIn.len = 8) := by decide

theorem witness_ConsumedIsTheFormLength :
    ∃ t d, exec (decodeOf .littleEndian) (decState [0xFD, 0xE8, 0x03] 3) = .next t ∧ t.decResp = some d ∧ d.status = 0 :=
  ⟨_, _, rfl, rfl, rfl⟩

theorem witness_ValueBoundedByPrefix :
    (∃ t d, exec (decodeOf .bigEndian) (decState [0xFC] 1) = .next t ∧ t.decResp = some d ∧ d.status = 0) ∧
    (decState [0xFC] 1).decIn.buf[0].toNat ≤ 252 ∧
    (∃ t d, exec (decodeOf .bigEndian) (decState [0xFD, 0xFF, 0xFF] 3) = .next t ∧ t.decResp = some d ∧ d.status = 0) ∧
    (decState [0xFD, 0xFF, 0xFF] 3).decIn.buf[0] = 0xFD ∧
    (∃ t d, exec (decodeOf .bigEndian) (decState [0xFE, 0xFF, 0xFF, 0xFF, 0xFF] 5) = .next t ∧ t.decResp = some d ∧
      d.status = 0) ∧
    (decState [0xFE, 0xFF, 0xFF, 0xFF, 0xFF] 5).decIn.buf[0] = 0xFE :=
  ⟨⟨_, _, rfl, rfl, rfl⟩, by decide, ⟨_, _, rfl, rfl, rfl⟩, rfl, ⟨_, _, rfl, rfl, rfl⟩, rfl⟩

/-- A success against other bytes after the form and more valid lanes; a truncation against other bytes after them. -/
theorem witness_LanesAfterTheFormDoNotMatter :
    (∃ (s s' t : State) (d : DecOut), s.DecKnown ∧ s'.DecKnown ∧ exec (decodeOf .littleEndian) s = .next t ∧
      t.decResp = some d ∧ d.status = 0 ∧ s.decIn.len.toNat ≤ s'.decIn.len.toNat ∧ s.decIn.buf[3] ≠ s'.decIn.buf[3] ∧
      ∀ (k : Nat) (h : k < 9), k < d.consumed.toNat → s'.decIn.buf[k] = s.decIn.buf[k]) ∧
    (∃ (s s' t : State) (d : DecOut), s.DecKnown ∧ s'.DecKnown ∧ exec (decodeOf .littleEndian) s = .next t ∧
      t.decResp = some d ∧ d.status ≠ 0 ∧ s'.decIn.len = s.decIn.len ∧ s.decIn.buf[2] ≠ s'.decIn.buf[2] ∧
      ∀ (k : Nat) (h : k < 9), k < effLen s.decIn.len → s'.decIn.buf[k] = s.decIn.buf[k]) :=
  ⟨⟨decState [0xFD, 1, 2, 3] 3, decState [0xFD, 1, 2, 4] 8, _, _, rfl, rfl, rfl, rfl, rfl, by decide, by decide,
     by decide⟩,
   ⟨decState [0xFD, 1, 2] 2, decState [0xFD, 1, 3] 2, _, _, rfl, rfl, rfl, rfl, by decide, rfl, by decide, by decide⟩⟩

theorem witness_ByteOrderReversesThePayload :
    classOfPrefix (decState [0xFC] 1).decIn.buf[0] = .tiny ∧
    ∃ s s' : State, s.DecKnown ∧ s'.DecKnown ∧ s'.decIn.buf[0] = s.decIn.buf[0] ∧ s'.decIn.len = s.decIn.len ∧
      (classOfPrefix s.decIn.buf[0]).formLength ≤ s.decIn.len.toNat ∧
      classOfPrefix s.decIn.buf[0] = .small ∧ s'.decIn.buf[1] = s.decIn.buf[2] ∧ s'.decIn.buf[2] = s.decIn.buf[1] :=
  ⟨by decide, decState [0xFD, 0xE8, 0x03] 3, decState [0xFD, 0x03, 0xE8] 3, by decide⟩

theorem witness_StatusFollowsTheLength : (decState [] 0).DecKnown := rfl

theorem witness_DecoderOutputsFollowTheTable :
    blockOf .prefixSmall = .decoder ∧
    (∃ t d, exec .prefixSmall (decState [] 3) = .next t ∧ t.decResp = some d ∧ d.status = 0) ∧
    (∃ t d, exec .prefixSmall (decState [] 0) = .next t ∧ t.decResp = some d ∧ d.status = 1) ∧
    (∃ t d, exec .prefixSmall (decState [] 2) = .next t ∧ t.decResp = some d ∧ d.status = 2) ∧
    (∃ d, (decState [0xFC] 1).decOut = some d ∧ d.status = 0) ∧ (∃ d, (decState [0xFC] 0).decOut = some d ∧ d.status = 1) ∧
    (∃ d, (decState [0xFF] 8).decOut = some d ∧ d.status = 2) :=
  ⟨rfl, ⟨_, _, rfl, rfl, rfl⟩, ⟨_, _, rfl, rfl, rfl⟩, ⟨_, _, rfl, rfl, rfl⟩, ⟨_, rfl, rfl⟩, ⟨_, rfl, rfl⟩, ⟨_, rfl, rfl⟩⟩

/-- The boundary values of the four ranges (95_test_vectors.md, rows marked B), for the statements on ENCODE. -/
theorem witness_EncodeLittleEndianForm :
    (encState 252).EncKnown ∧ (encState 252).encIn.value.toNat ≤ 252 ∧
    253 ≤ (encState 253).encIn.value.toNat ∧ (encState 4095).encIn.value.toNat ≤ 4095 ∧
    4096 ≤ (encState 4096).encIn.value.toNat ∧ (encState 4294967295).encIn.value.toNat ≤ 4294967295 ∧
    4294967296 ≤ (encState 4294967296).encIn.value.toNat := by decide

theorem witness_EncodeBigEndianForm :
    (encState 252 1).EncKnown ∧ (encState 252 1).encIn.value.toNat ≤ 252 ∧
    253 ≤ (encState 253 1).encIn.value.toNat ∧ (encState 4095 1).encIn.value.toNat ≤ 4095 ∧
    4096 ≤ (encState 4096 1).encIn.value.toNat ∧ (encState 4294967295 1).encIn.value.toNat ≤ 4294967295 ∧
    4294967296 ≤ (encState 4294967296 1).encIn.value.toNat := by decide

theorem witness_EncodedLengthByValue :
    (encState 0).EncKnown ∧ (encState 0).encIn.value.toNat ≤ 252 ∧
    253 ≤ (encState 4095).encIn.value.toNat ∧ (encState 4095).encIn.value.toNat ≤ 4095 ∧
    4096 ≤ (encState 4294967295).encIn.value.toNat ∧ (encState 4294967295).encIn.value.toNat ≤ 4294967295 ∧
    4294967296 ≤ (encState 18446744073709551615).encIn.value.toNat := by decide

theorem witness_EncoderLanesAfterTheFormAreZero :
    (∃ t e, exec (encodeOf .littleEndian) (encState 1000) = .next t ∧ t.encResp = some e ∧ e.len.toNat ≤ 3) ∧
    (∃ e, (encState 0).encOut = some e ∧ e.len.toNat ≤ 1) ∧ (∃ e, (encState 4294967296).encOut = some e ∧ e.len = 9) :=
  ⟨⟨_, _, rfl, rfl, by decide⟩, ⟨_, rfl, by decide⟩, ⟨_, rfl, rfl⟩⟩

theorem witness_ClassDoesNotDependOnOrder :
    (encState 1000 0).encIn.value = (encState 1000 1).encIn.value ∧
    (∃ t e, exec (encodeOf .littleEndian) (encState 1000 0) = .next t ∧ t.encResp = some e) ∧
    (∃ t e, exec (encodeOf .bigEndian) (encState 1000 1) = .next t ∧ t.encResp = some e) :=
  ⟨rfl, ⟨_, _, rfl, rfl⟩, ⟨_, _, rfl, rfl⟩⟩

theorem witness_ExcessPayloadBytesAreZero :
    (∃ t e, exec .encodeLE (encState 253) = .next t ∧ t.encResp = some e) ∧
    (∃ u f, exec .encodeBE (encState 253) = .next u ∧ u.encResp = some f) ∧
    1 < (classOfValue (encState 253).encIn.value).width ∧ (encState 253).encIn.value.toNat < 2 ^ (8 * 1) ∧
    classOfValue (encState 253).encIn.value = .small := ⟨⟨_, _, rfl, rfl⟩, ⟨_, _, rfl, rfl⟩, by decide⟩

theorem witness_EncodeOrdersReverseThePayload :
    (encState 252).EncKnown ∧ (encState 252).encIn.value.toNat ≤ 252 := by decide

theorem witness_DecodeInvertsEncode :
    (encState 4096).EncKnown ∧
    ∃ (e : EncOut) (u : State), exec (encodeOf .littleEndian) (encState 4096) = .next ((encState 4096).setEncResp e) ∧
      u.DecKnown ∧ u.decIn.len = e.len ∧ ∀ (k : Nat) (h : k < 9), k < e.len.toNat → u.decIn.buf[k] = e.buf[k] :=
  ⟨rfl, _, decState [0xFE, 0x00, 0x10, 0x00, 0x00, 0x77] 5, rfl, rfl, rfl, by decide⟩

/-- A canonical and a non-canonical form (S4, N1). -/
theorem witness_EncodeInvertsDecodeOnCanonicalForms :
    (∃ t d, exec (decodeOf .littleEndian) (decState [0xFD, 0xE8, 0x03] 3) = .next t ∧ t.decResp = some d ∧ d.status = 0 ∧
      (encState 1000).EncKnown ∧ (encState 1000).encIn.value = d.value ∧
      classOfPrefix (decState [0xFD, 0xE8, 0x03] 3).decIn.buf[0] = classOfValue d.value) ∧
    (∃ t d, exec (decodeOf .littleEndian) (decState [0xFD, 0x05, 0x00] 3) = .next t ∧ t.decResp = some d ∧ d.status = 0 ∧
      (encState 5).EncKnown ∧ (encState 5).encIn.value = d.value ∧
      classOfPrefix (decState [0xFD, 0x05, 0x00] 3).decIn.buf[0] ≠ classOfValue d.value) :=
  ⟨⟨_, _, rfl, rfl, rfl, rfl, by decide, by decide⟩, ⟨_, _, rfl, rfl, rfl, rfl, by decide, by decide⟩⟩

theorem witness_EncoderWritesCanonicalForms :
    ∃ t e, exec (encodeOf .bigEndian) (encState 70000) = .next t ∧ t.encResp = some e := ⟨_, _, rfl, rfl⟩

theorem witness_MediumThresholdIsKept :
    ∃ s a b : State, s.EncKnown ∧ 4096 ≤ s.encIn.value.toNat ∧ s.encIn.value.toNat ≤ 65535 ∧
      a.DecKnown ∧ a.decIn.len = 3 ∧ a.decIn.buf[0] = 0xFD ∧
      [a.decIn.buf[1], a.decIn.buf[2]] = render .littleEndian s.encIn.value 2 ∧
      b.DecKnown ∧ b.decIn.len = 5 ∧ b.decIn.buf[0] = 0xFE ∧
      [b.decIn.buf[1], b.decIn.buf[2], b.decIn.buf[3], b.decIn.buf[4]] = render .littleEndian s.encIn.value 4 :=
  ⟨encState 4096, decState [0xFD, 0x00, 0x10] 3, decState [0xFE, 0x00, 0x10, 0x00, 0x00] 5, by decide⟩

theorem witness_WrongOrderIsNoError :
    (∃ (s : State) (e : EncOut) (u : State), ByteOrder.littleEndian ≠ .bigEndian ∧ s.EncKnown ∧ 253 ≤ s.encIn.value.toNat ∧
      u.DecKnown ∧ exec (encodeOf .littleEndian) s = .next (s.setEncResp e) ∧ u.decIn.len = e.len ∧
      ∀ (k : Nat) (h : k < 9), k < e.len.toNat → u.decIn.buf[k] = e.buf[k]) ∧
    (∃ (s : State) (e : EncOut) (u : State), ByteOrder.bigEndian ≠ .littleEndian ∧ s.EncKnown ∧ 253 ≤ s.encIn.value.toNat ∧
      u.DecKnown ∧ exec (encodeOf .bigEndian) s = .next (s.setEncResp e) ∧ u.decIn.len = e.len ∧
      ∀ (k : Nat) (h : k < 9), k < e.len.toNat → u.decIn.buf[k] = e.buf[k]) :=
  ⟨⟨encState 253, _, decState [0xFD, 0xFD, 0x00] 3, by decide, rfl, by decide, rfl, rfl, rfl, by decide⟩,
   ⟨encState 253, _, decState [0xFD, 0x00, 0xFD] 3, by decide, rfl, by decide, rfl, rfl, rfl, by decide⟩⟩

theorem witness_EveryKnownRequestIsAnswered :
    (decState [] 0).Known (blockOf .decodeLE) ∧ (encState 0).Known (blockOf .encodeBE) ∧
    ¬ decUnknownState.Known (blockOf .prefixLarge) ∧ ¬ encUnknownState.Known (blockOf .encodeLE) :=
  ⟨rfl, rfl, by show ¬ decUnknownState.DecKnown; decide, by show ¬ encUnknownState.EncKnown; decide⟩

theorem witness_DecoderRequestFrame :
    blockOf (.prefixTiny80 1) = .decoder ∧ ∃ t, exec (.prefixTiny80 1) (decState [0x81] 1) = .next t := ⟨rfl, _, rfl⟩

theorem witness_EncoderRequestFrame :
    blockOf .encodeLE = .encoder ∧ ∃ t, exec .encodeLE (encState 70000) = .next t := ⟨rfl, _, rfl⟩

/-- Two states with equal inputs of one block, which ask different blocks and hold different responses. -/
theorem witness_ResponseDependsOnTheRequestOnly :
    ((decState [5] 1).DecKnown ∧ (((decState [5] 1).setBlock .encoder).setDecResp ⟨2, 0, 0, 9, 1⟩).DecKnown ∧
      (decState [5] 1).decIn = (((decState [5] 1).setBlock .encoder).setDecResp ⟨2, 0, 0, 9, 1⟩).decIn ∧
      (decState [5] 1).block = .decoder) ∧
    ((encState 5).EncKnown ∧ (((encState 5).setBlock .decoder).setEncResp ⟨Lanes.zeros, 9⟩).EncKnown ∧
      (encState 5).encIn = (((encState 5).setBlock .decoder).setEncResp ⟨Lanes.zeros, 9⟩).encIn ∧
      (encState 5).block = .encoder) := by decide

theorem witness_StepReturnsTheOutputPorts :
    (∃ t, step (decState [0xFD, 0xE8, 0x03] 3) = .next t ∧ (decState [0xFD, 0xE8, 0x03] 3).block = .decoder) ∧
    (∃ t, step (encState 70000) = .next t ∧ (encState 70000).block = .encoder) := ⟨⟨_, rfl, rfl⟩, ⟨_, rfl, rfl⟩⟩

/-- With a response on record, and with none. -/
theorem witness_StepKeepsResponsesCurrent :
    ((decState [5] 1).setDecResp ⟨0, 5, 1, 0, 0⟩).ResponsesCurrent ∧
    (∃ t, step ((decState [5] 1).setDecResp ⟨0, 5, 1, 0, 0⟩) = .next t) ∧ (encState 5).ResponsesCurrent ∧
    (∃ t, step (encState 5) = .next t) :=
  ⟨⟨fun _ h => by cases h; rfl, fun _ h => by cases h⟩, ⟨_, rfl⟩, ⟨fun _ h => (by cases h), fun _ h => (by cases h)⟩, ⟨_, rfl⟩⟩

/-- Of a state with a response on record; with a known and with an unknown bit driven next. -/
theorem witness_DrivingInputsKeepsResponsesCurrent :
    ((decState [5] 1).setDecResp ⟨0, 5, 1, 0, 0⟩).ResponsesCurrent ∧ (⟨Lanes.zeros, 1, 0⟩ : DecIn) ≠ DecIn.zeros ∧
    (⟨0x80, 0⟩ : EncIn) ≠ EncIn.zeros :=
  ⟨⟨fun _ h => by cases h; rfl, fun _ h => by cases h⟩, by decide, by decide⟩

theorem witness_RepeatedRequestIsIdempotent :
    ∃ t, step (decState [0xFD, 0xE8, 0x03] 3) = .next t ∧ t ≠ decState [0xFD, 0xE8, 0x03] 3 := ⟨_, rfl, by decide⟩

theorem witness_StepKeepsOutputsLegal :
    ((encState 70000).setDecResp ⟨0, 5, 1, 0, 0⟩).ResponsesLegal ∧
    ∃ t, step ((encState 70000).setDecResp ⟨0, 5, 1, 0, 0⟩) = .next t :=
  ⟨⟨fun _ h => (by cases h; decide), fun _ h => (by cases h)⟩, _, rfl⟩

theorem witness_LongBufferOnNineLanes :
    ∃ (s : State) (bytes : List Byte), s.DecKnown ∧ 9 ≤ bytes.length ∧ 9 ≤ s.decIn.len.toNat ∧
      s.decIn.buf.toList = bytes.take 9 :=
  ⟨decState [0xFD, 1, 2, 3, 4, 5, 6, 7, 8] 15, [0xFD, 1, 2, 3, 4, 5, 6, 7, 8, 9, 10], by decide⟩

/-- P3: one byte of a Large form, then all nine. -/
theorem witness_TruncationIsRecovered :
    ∃ t d, step (State.reset.presentDecode .littleEndian [0xFF] 0) = .next t ∧ t.decResp = some d ∧ d.status = 2 ∧
      d.needed.toNat ≤ ([0xFF] : List Byte).length + ([1, 2, 3, 4, 5, 6, 7, 8] : List Byte).length :=
  ⟨_, _, rfl, rfl, rfl, by decide⟩

theorem witness_CanonicalCheckFindsNonCanonical :
    ∃ t d, exec (decodeOf .bigEndian) (decState [0xFD, 0xE8, 0x03] 3) = .next t ∧ t.decResp = some d ∧ d.status = 0 ∧
      canonicalCheck .bigEndian t = some false := ⟨_, _, rfl, rfl, rfl, by decide⟩

theorem witness_AdvanceMovesOnlyAfterOk :
    (State.reset.setDecResp ⟨0, 5, 1, 0, 0⟩).decResp = some ⟨0, 5, 1, 0, 0⟩ ∧
    (State.reset.setDecResp ⟨1, 0, 0, 0, 0⟩).decResp = some ⟨1, 0, 0, 0, 0⟩ ∧
    (State.reset.setDecResp ⟨2, 0, 0, 3, 1⟩).decResp = some ⟨2, 0, 0, 3, 1⟩ ∧
    (State.reset.setDecResp ⟨3, 0, 0, 0, 0⟩).decResp = some ⟨3, 0, 0, 0, 0⟩ ∧ State.reset.decResp = none := by decide

theorem witness_EmittedValueIsParsed :
    (Embedding.mk State.reset [0x05] 1).offset = (Embedding.mk State.reset [0x05] 1).buffer.length := rfl

end Sys2Proof.Tests
end

section
/-! PROOFS. The statements on byte lanes: a lane access answers for its own lane only (R15, R40), and the flat bus is the
nine lanes side by side (R14). -/

namespace Sys2Proof.Machine

/-- What a lane write that answers has done: the lane exists, and it alone is replaced. -/
theorem writeLane_eq_some_iff (b b' : Lanes) (k : Nat) (x : Byte) :
    writeLane b k x = some b' ↔ ∃ h : k < 9, b.set k x h = b' := by
  by_cases h : k < 9
  · simp [writeLane_of_lt b h, h]
  · simp [(writeLane_eq_none_iff b k x).2 (by omega), h]

theorem readLane_set_self (b : Lanes) {k : Nat} (h : k < 9) (x : Byte) : readLane (b.set k x h) k = some x :=
  Vector.getElem?_set_self h

theorem readLane_set_ne (b : Lanes) {k j : Nat} (h : k < 9) (x : Byte) (hj : j ≠ k) :
    readLane (b.set k x h) j = readLane b j :=
  Vector.getElem?_set_ne h hj.symm

/-- Settles O9: the lane written holds the byte, the others are kept, and lanes end at 8. -/
theorem laneReadAfterWrite : Obligations.LaneReadAfterWrite := by
  refine ⟨fun b b' k x hw => ?_, fun b k x => ⟨writeLane_eq_none_iff b k x, readLane_eq_none_iff b k⟩⟩
  obtain ⟨hk, rfl⟩ := (writeLane_eq_some_iff b b' k x).1 hw
  exact ⟨readLane_set_self b hk x, fun j hj => readLane_set_ne b hk x hj⟩

/-- Lane `k` taken from the bus is its bits `[8k+7:8k]` (R14). -/
theorem lanesOfBus_getElem (bus : BitVec 72) {k : Nat} (h : k < 9) : (lanesOfBus bus)[k] = bus.extractLsb' (8 * k) 8 := by
  interval_cases k <;> rfl

/-- The byte appended last stands in the lowest eight bits. -/
theorem getLsbD_append_byte_of_lt {n : Nat} (hi : BitVec n) (lo : Byte) {j : Nat} (hj : j < 8) :
    (hi ++ lo).getLsbD j = lo.getLsbD j := by
  simp [BitVec.getLsbD_append, hj]

/-- Appending a byte moves what stands before it up by eight bits. -/
theorem getLsbD_append_byte_add {n : Nat} (hi : BitVec n) (lo : Byte) (i : Nat) :
    (hi ++ lo).getLsbD (i + 8) = hi.getLsbD i := by
  simp [BitVec.getLsbD_append]

/-- Bit `8k+j` of the packed bus is bit `j` of lane `k` (R14): `k` bytes are passed, then the bit is in the lowest one. -/
theorem busOfLanes_getLsbD (b : Lanes) {k j : Nat} (hk : k < 9) (hj : j < 8) :
    (busOfLanes b).getLsbD (j + 8 * k) = b[k].getLsbD j := by
  interval_cases k <;> simp [busOfLanes, getLsbD_append_byte_of_lt, getLsbD_append_byte_add, hj]

theorem lanesOfBus_busOfLanes (b : Lanes) : lanesOfBus (busOfLanes b) = b := by
  ext k hk j hj
  rw [lanesOfBus_getElem _ hk, BitVec.getElem_extractLsb', Nat.add_comm, busOfLanes_getLsbD b hk hj,
    BitVec.getLsbD_eq_getElem]

theorem busOfLanes_lanesOfBus (bus : BitVec 72) : busOfLanes (lanesOfBus bus) = bus := by
  apply BitVec.eq_of_getLsbD_eq
  intro i hi
  have hlane : i / 8 < 9 := by omega
  have hbit : i % 8 < 8 := by omega
  calc (busOfLanes (lanesOfBus bus)).getLsbD i
      = (busOfLanes (lanesOfBus bus)).getLsbD (i % 8 + 8 * (i / 8)) := by rw [Nat.mod_add_div]
    _ = (bus.extractLsb' (8 * (i / 8)) 8).getLsbD (i % 8) := by
      rw [busOfLanes_getLsbD _ hlane hbit, lanesOfBus_getElem bus hlane]
    _ = bus.getLsbD i := by simp [hbit, Nat.div_add_mod]

/-- Settles O10: lane by lane for what the bus carries, bit by bit for the two inverses. -/
theorem busCarriesLaneBytes : Obligations.BusCarriesLaneBytes :=
  ⟨fun bus _ h => lanesOfBus_getElem bus h, lanesOfBus_busOfLanes, busOfLanes_lanesOfBus⟩

end Sys2Proof.Machine
end

section
/-! PROOFS. The statements on the state: what a request leaves unchanged, what a step returns, which outputs are legal
(R20, R30 to R34), and what presenting a table word does to the ports (R69; assumptions 7 and 8). -/

namespace Sys2Proof.Machine

/-! What the decoder drives follows R30's table. -/

/-- A length of up to nine bytes fits the count ports. -/
theorem toNat_ofNat_formLength (c : SizeClass) : (BitVec.ofNat 4 c.formLength).toNat = c.formLength := by
  cases c <;> rfl

theorem DecOut.ok_legal (v : Value) (c : SizeClass) : (DecOut.ofResult (.ok v c.formLength)).Legal := by
  have hconsumed : BitVec.ofNat 4 c.formLength ∈ [1, 3, 5, 9] := by cases c <;> decide
  exact .inl ⟨rfl, hconsumed, rfl, rfl⟩

theorem DecOut.empty_legal : (DecOut.ofResult .empty).Legal := .inr (.inl ⟨rfl, rfl, rfl, rfl, rfl⟩)

/-- A form of which some bytes are there, but not all, is not a Tiny one, so it needs 3, 5 or 9. -/
theorem DecOut.truncated_legal {c : SizeClass} {n : Nat} (hpos : 1 ≤ n) (hshort : n < c.formLength) :
    (DecOut.ofResult (.truncated c.formLength n)).Legal := by
  have hneeded : BitVec.ofNat 4 c.formLength ∈ [3, 5, 9] := by
    cases c with
    | tiny => exact absurd hshort (Nat.not_lt.2 hpos)
    | small | medium | large => decide
  have hlen := toNat_ofNat_formLength c
  have havail : (BitVec.ofNat 4 n).toNat = n := by
    rw [BitVec.toNat_ofNat, Nat.mod_eq_of_lt (by have := (BitVec.ofNat 4 c.formLength).isLt; omega)]
  exact .inr (.inr ⟨rfl, rfl, rfl, hneeded, hpos.trans_eq havail.symm,
    havail.trans_lt (hshort.trans_eq hlen.symm)⟩)

theorem formResult_legal {o : ByteOrder} {p : Byte} {d : DecIn} (h : effLen d.len ≠ 0) :
    (DecOut.ofResult (formResult o p d)).Legal := by
  unfold formResult
  split
  · next hshort => exact DecOut.truncated_legal (Nat.pos_of_ne_zero h) hshort
  · split
    · exact DecOut.ok_legal _ .tiny
    · exact DecOut.ok_legal _ _

theorem decodeResult_legal (o : ByteOrder) (d : DecIn) : (DecOut.ofResult (decodeResult o d)).Legal := by
  unfold decodeResult
  split
  · exact DecOut.empty_legal
  · next h => exact formResult_legal h

theorem prefixResult_legal (p : Byte) (d : DecIn) : (DecOut.ofResult (prefixResult p d)).Legal := by
  unfold prefixResult
  split
  · exact DecOut.empty_legal
  · next h => exact formResult_legal h

/-- The decoder's ports carry a value when its input bits are known: the result of the inputs. -/
theorem decOut_eq_some_iff {s : State} {d : DecOut} :
    s.decOut = some d ↔ s.DecKnown ∧ d = DecOut.ofResult (decodeResult (orderOfBit s.decIn.order) s.decIn) := by
  rw [State.decOut_eq]
  simp [eq_comm]

theorem decOut_legal {s : State} {d : DecOut} (h : s.decOut = some d) : d.Legal := by
  obtain ⟨-, rfl⟩ := decOut_eq_some_iff.1 h
  exact decodeResult_legal _ _

/-! What the encoder drives is one encoded form and zeros (R31). -/

@[simp] theorem encodeResult_len_toNat (o : ByteOrder) (v : Value) :
    (encodeResult o v).len.toNat = (classOfValue v).formLength := toNat_ofNat_formLength _

/-- Lanes 0 to `enc_len - 1` hold the encoded form. -/
theorem encodeResult_form (o : ByteOrder) (v : Value) : (encodeResult o v).form = encodedForm o v := by
  rw [EncOut.form, encodeResult_len_toNat, ← encodedForm_length o v, encodeResult,
    lanesOfBytes_toList _ (encodedLanes_length o v), encodedLanes, List.take_left]

/-- Lane 0 holds byte 0 of the form. -/
theorem encodeResult_buf_zero (o : ByteOrder) (v : Value) : (encodeResult o v).buf[0] = prefixOfValue v := rfl

/-- From `enc_len` on the lanes hold the zeros that follow the form. -/
theorem encodeResult_buf_of_le {o : ByteOrder} {v : Value} {k : Nat} (h : k < 9)
    (hk : (encodeResult o v).len.toNat ≤ k) : (encodeResult o v).buf[k] = 0 := by
  rw [encodeResult_len_toNat, ← encodedForm_length o v] at hk
  simp only [encodeResult, lanesOfBytes_getElem _ k h, encodedLanes, List.getD_append_right _ _ _ _ hk]
  simp

theorem encodeResult_legal (o : ByteOrder) (v : Value) : (encodeResult o v).Legal :=
  ⟨by rw [encodeResult_len_toNat, encodeResult_buf_zero, classOfPrefix_prefixOfValue],
    fun _ h hk => encodeResult_buf_of_le h hk⟩

/-- The encoder's ports carry a value when its input bits are known: the form of the value on `enc_value`. -/
theorem encOut_eq_some_iff {s : State} {e : EncOut} :
    s.encOut = some e ↔ s.EncKnown ∧ e = encodeResult (orderOfBit s.encIn.order) s.encIn.value := by
  rw [State.encOut_eq]
  simp [eq_comm]

theorem encOut_legal {s : State} {e : EncOut} (h : s.encOut = some e) : e.Legal := by
  obtain ⟨-, rfl⟩ := encOut_eq_some_iff.1 h
  exact encodeResult_legal _ _

/-! What a request that answers has done. -/

/-- An instruction the decoder runs is DECODE.LE, DECODE.BE or one of the wire prefixes. -/
theorem decoder_cases (i : Instr) (hi : blockOf i = .decoder) : (∃ o, i = decodeOf o) ∨ i.formClass.isSome := by
  cases i with
  | decodeLE => exact .inl ⟨.littleEndian, rfl⟩
  | decodeBE => exact .inl ⟨.bigEndian, rfl⟩
  | encodeLE | encodeBE => cases hi
  | _ => exact .inr rfl

/-- A decoder instruction that answers only puts a response of R30's table on record. -/
theorem exec_decoder_next {i : Instr} {s t : State} (hi : blockOf i = .decoder) (h : exec i s = .next t) :
    ∃ d : DecOut, d.Legal ∧ t = s.setDecResp d := by
  rcases decoder_cases i hi with ⟨o, rfl⟩ | hwire
  · exact ⟨_, decodeResult_legal o s.decIn, (exec_decodeOf_next h).2⟩
  · rw [exec_of_formClass hwire, prefixRequest_eq] at h
    split at h
    · cases h; exact ⟨_, prefixResult_legal _ _, rfl⟩
    · cases h

/-- A step that asks the decoder returns what the decoder's output ports carry. -/
theorem step_of_decOut {s : State} {d : DecOut} (hb : s.block = .decoder) (hd : s.decOut = some d) :
    step s = .next (s.setDecResp d) := by
  obtain ⟨hk, rfl⟩ := decOut_eq_some_iff.1 hd
  rw [step_eq, hb]
  exact exec_decodeOf_known hk

/-- A step that asks the encoder returns what the encoder's output ports carry. -/
theorem step_of_encOut {s : State} {e : EncOut} (hb : s.block = .encoder) (he : s.encOut = some e) :
    step s = .next (s.setEncResp e) := by
  obtain ⟨hk, rfl⟩ := encOut_eq_some_iff.1 he
  rw [step_eq, hb]
  exact exec_encodeOf_known hk

/-- All a step can do when it answers: put what the output ports of the block asked carry on record as its response. -/
theorem step_next {s t : State} (h : step s = .next t) :
    (s.block = .decoder ∧ ∃ d, s.decOut = some d ∧ t = s.setDecResp d) ∨
    (s.block = .encoder ∧ ∃ e, s.encOut = some e ∧ t = s.setEncResp e) := by
  rw [step_eq] at h
  cases hb : s.block <;> rw [hb] at h
  · obtain ⟨hk, rfl⟩ := exec_decodeOf_next h
    exact .inl ⟨rfl, _, decOut_eq_some_iff.2 ⟨hk, rfl⟩, rfl⟩
  · obtain ⟨hk, rfl⟩ := exec_encodeOf_next h
    exact .inr ⟨rfl, _, encOut_eq_some_iff.2 ⟨hk, rfl⟩, rfl⟩

/-! The invariants. -/

/-- Settles O44: the new response is what the block's output ports carry, which is legal in every state. -/
theorem stepKeepsOutputsLegal : Obligations.StepKeepsOutputsLegal := by
  intro s t ⟨hdec, henc⟩ h
  refine ⟨?_, fun _ => decOut_legal, fun _ => encOut_legal⟩
  rcases step_next h with ⟨-, d, hd, rfl⟩ | ⟨-, e, he, rfl⟩
  · exact ⟨fun _ h => by cases h; exact decOut_legal hd, henc⟩
  · exact ⟨hdec, fun _ h => by cases h; exact encOut_legal he⟩

/-- Settles O55: the new response is what the block's output ports carry, and the step changes no port. -/
theorem stepKeepsResponsesCurrent : Obligations.StepKeepsResponsesCurrent := by
  intro s t ⟨hdec, henc⟩ h
  rcases step_next h with ⟨-, d, hd, rfl⟩ | ⟨-, e, he, rfl⟩
  · exact ⟨fun _ h => by cases h; exact hd, henc⟩
  · exact ⟨hdec, fun _ h => by cases h; exact he⟩

/-- Settles O45: no response is on record at reset, and the ports are legal in every state. -/
theorem resetOutputsLegal : Obligations.ResetOutputsLegal :=
  ⟨⟨nofun, nofun⟩, fun _ => decOut_legal, fun _ => encOut_legal⟩

/-- Settles O57: no response is on record at reset. -/
theorem resetResponsesCurrent : Obligations.ResetResponsesCurrent := ⟨⟨nofun, nofun⟩, rfl, rfl⟩

/-- Settles O46: the ports are evaluated at reset, and a step returns what they carry. -/
theorem resetOutputsAreTheResponses : Obligations.ResetOutputsAreTheResponses := by
  have hdec : State.reset.decOut = some ⟨1, 0, 0, 0, 0⟩ := rfl
  have henc : State.reset.encOut = some ⟨#v[0, 0, 0, 0, 0, 0, 0, 0, 0], 1⟩ := rfl
  exact ⟨hdec, henc, step_of_decOut rfl hdec, step_of_encOut rfl henc⟩

/-! The responses and the output ports. -/

/-- Settles O25: a legal output follows the row its status selects. -/
theorem decoderOutputsFollowTheTable : Obligations.DecoderOutputsFollowTheTable := by
  intro s d hd
  have hlegal : d.Legal := by
    rcases hd with ⟨t, i, hi, hexec, hresp⟩ | hport
    · obtain ⟨r, hr, rfl⟩ := exec_decoder_next hi hexec
      cases hresp; exact hr
    · exact decOut_legal hport
  rcases hlegal with ⟨hs, hc, hn, ha⟩ | ⟨hs, hrest⟩ | ⟨hs, hv, hc, hn, hpos, hlt⟩
  · have hc' : d.consumed.toNat ∈ [1, 3, 5, 9] := List.mem_map_of_mem (f := BitVec.toNat) hc
    simp [hs, hc', hn, ha]
  · simpa [hs] using hrest
  · have hn' : d.needed.toNat ∈ [3, 5, 9] := List.mem_map_of_mem (f := BitVec.toNat) hn
    have hmax : d.available.toNat ≤ 8 := by simp only [List.mem_cons, List.not_mem_nil, or_false] at hn'; omega
    simp [hs, hv, hc, hn', hpos, hmax]

/-- Settles O29: the response of an encode operation and the encoder's ports are the nine lanes of the form and zeros. -/
theorem encoderLanesAfterTheFormAreZero : Obligations.EncoderLanesAfterTheFormAreZero := by
  refine ⟨fun s t e o hexec hresp => ?_, fun s e he => ?_⟩
  · obtain ⟨-, rfl⟩ := exec_encodeOf_next hexec
    cases hresp
    exact ⟨encodeResult_form _ _, fun _ h hk => encodeResult_buf_of_le h hk⟩
  · obtain ⟨-, rfl⟩ := encOut_eq_some_iff.1 he
    exact ⟨encodeResult_form _ _, fun _ h hk => encodeResult_buf_of_le h hk⟩

/-- Settles O42: equal inputs put equal values on the ports, and a step that asks the block returns them. -/
theorem responseDependsOnTheRequestOnly : Obligations.ResponseDependsOnTheRequestOnly := by
  refine ⟨fun s s' hk hk' heq => ?_, fun s s' hk hk' heq => ?_⟩
  · have hs := decOut_eq_some_iff.2 ⟨hk, rfl⟩
    have hs' := decOut_eq_some_iff.2 ⟨hk', rfl⟩
    rw [← heq] at hs'
    exact ⟨_, hs, hs', fun hb => step_of_decOut hb hs, fun hb => step_of_decOut hb hs'⟩
  · have hs := encOut_eq_some_iff.2 ⟨hk, rfl⟩
    have hs' := encOut_eq_some_iff.2 ⟨hk', rfl⟩
    rw [← heq] at hs'
    exact ⟨_, hs, hs', fun hb => step_of_encOut hb hs, fun hb => step_of_encOut hb hs'⟩

/-- Settles O54: the case of the block asked is what the step has done, the other case cannot be. -/
theorem stepReturnsTheOutputPorts : Obligations.StepReturnsTheOutputPorts := by
  intro s t h
  rcases step_next h with ⟨hb, d, hd, rfl⟩ | ⟨hb, e, he, rfl⟩
  · exact ⟨rfl, rfl, fun _ => ⟨hd.symm, ⟨d, rfl⟩, rfl⟩, fun hb' => by simp [hb] at hb'⟩
  · exact ⟨rfl, rfl, fun hb' => by simp [hb] at hb', fun _ => ⟨he.symm, ⟨e, rfl⟩, rfl⟩⟩

/-- Settles O40: a decoder instruction that answers puts its response on record and does nothing else. -/
theorem decoderRequestFrame : Obligations.DecoderRequestFrame := by
  intro i s t hi h
  obtain ⟨d, -, rfl⟩ := exec_decoder_next hi h
  simp

/-- Settles O41: ENCODE.LE or ENCODE.BE that answers puts its response on record and does nothing else. -/
theorem encoderRequestFrame : Obligations.EncoderRequestFrame := by
  intro i s t hi h
  obtain ⟨o, rfl⟩ := encoder_cases i hi
  obtain ⟨-, rfl⟩ := exec_encodeOf_next h
  simp

/-- Settles O38: whichever block runs the instruction, it answers exactly when that block's input bits are known. -/
theorem everyKnownRequestIsAnswered : Obligations.EveryKnownRequestIsAnswered := by
  intro i s
  cases hi : blockOf i with
  | decoder =>
    obtain ⟨f, hf⟩ := exec_decoder i hi
    exact ⟨fun hk => ⟨_, (hf s).trans (if_pos hk)⟩, fun hk => (hf s).trans (if_neg hk)⟩
  | encoder =>
    obtain ⟨o, rfl⟩ := encoder_cases i hi
    exact ⟨fun hk => ⟨_, exec_encodeOf_known hk⟩, fun hk => (exec_encodeOf o s).trans (if_neg hk)⟩

/-! Presenting a table word. -/

/-- What presenting a selector of the decoder does. -/
theorem placeSelector_of_decoder {op : BitVec 2} (h : blockOfBit (op.extractLsb' 1 1) = .decoder) (s : State) :
    placeSelector op s = (s.setBlock .decoder).setDecIn { s.decIn with order := op.extractLsb' 0 1 }
      { s.decUnknown with order := 0 } := by
  rw [placeSelector, h]

/-- What presenting a selector of the encoder does. -/
theorem placeSelector_of_encoder {op : BitVec 2} (h : blockOfBit (op.extractLsb' 1 1) = .encoder) (s : State) :
    placeSelector op s = (s.setBlock .encoder).setEncIn { s.encIn with order := op.extractLsb' 0 1 }
      { s.encUnknown with order := 0 } := by
  rw [placeSelector, h]

/-- The selector is the unit bit and the order bit (R69). -/
theorem unitBit_append_orderBit : ∀ op : BitVec 2,
    unitBit (blockOfBit (op.extractLsb' 1 1)) ++ op.extractLsb' 0 1 = op := by decide

/-- The operation a selector names is a request to the block its unit bit names (R69). -/
theorem blockOf_decodeSelector : ∀ op : BitVec 2, blockOf (decodeSelector op) = blockOfBit (op.extractLsb' 1 1) := by
  decide

/-- The selector presented is the one read off the ports. -/
theorem selector_placeSelector (op : BitVec 2) (s : State) : (placeSelector op s).selector = op := by
  refine Eq.trans ?_ (unitBit_append_orderBit op)
  cases h : blockOfBit (op.extractLsb' 1 1) with
  | decoder => rw [placeSelector_of_decoder h]; rfl
  | encoder => rw [placeSelector_of_encoder h]; rfl

/-- The next step runs the operation of the selector presented. -/
theorem step_placeSelector (op : BitVec 2) (s : State) :
    step (placeSelector op s) = exec (decodeSelector op) (placeSelector op s) := by
  rw [step, fetchOperation, selector_placeSelector]

/-- A step that asks the decoder runs what lane 0 is decoded to; with no valid byte both answer EMPTY (R83, R125). -/
theorem step_eq_exec_decodePrefix {s : State} (hb : s.block = .decoder) :
    step s = exec (decodePrefix s.decIn.buf[0]) s := by
  rw [step_eq, hb, exec_decodePrefix, prefixRequest_eq]
  exact exec_decodeOf _ s

/-- Lane 0 carries the lowest byte of the number presented. -/
theorem placeForm_buf_zero (w : Nat) (s : State) : (placeForm w s).decIn.buf[0] = BitVec.ofNat 8 w := by
  refine (lanesOfBus_getElem _ (by decide)).trans (BitVec.eq_of_toNat_eq ?_)
  simp

/-- A table word read as a form has at least a byte, and its byte 0 is the number's lowest byte. -/
theorem tableWord_eq_wirePrefix {nbits w : Nat} {p : Byte} (h : tableWord nbits w = some (.wirePrefix p)) :
    8 ≤ nbits ∧ p = BitVec.ofNat 8 w := by
  unfold tableWord at h
  split at h
  · cases h
  · split at h
    · cases h
    · cases h; exact ⟨by omega, rfl⟩

/-- The next step runs the head of the form presented: the bits above the word's do not reach byte 0. -/
theorem step_placeForm {nbits w : Nat} {p : Byte} (h : tableWord nbits w = some (.wirePrefix p)) (s : State) :
    step (placeForm (w % 2 ^ nbits) s) = exec (decodePrefix p) (placeForm (w % 2 ^ nbits) s) := by
  obtain ⟨hbits, rfl⟩ := tableWord_eq_wirePrefix h
  have hlow : BitVec.ofNat 8 (w % 2 ^ nbits) = BitVec.ofNat 8 w :=
    BitVec.eq_of_toNat_eq (Nat.mod_mod_of_dvd w (Nat.pow_dvd_pow 2 hbits))
  rw [step_eq_exec_decodePrefix rfl, placeForm_buf_zero, hlow]

/-- Settles O3: a selector word drives the unit and the order port of its block, a form word the decoder's lanes. -/
theorem presentedWordRunsNext : Obligations.PresentedWordRunsNext := by
  intro s nbits w i hi
  obtain ⟨c, hc, rfl⟩ := Option.map_eq_some_iff.1 hi
  cases c with
  | reqSelect op =>
    have hplace : s.withFetchWord nbits w = placeSelector op s := by rw [State.withFetchWord, placeWord, hc]
    rw [hplace]
    refine ⟨step_placeSelector op s, fun hb => ?_, fun hb => ?_⟩
    · rw [placeSelector_of_decoder ((blockOf_decodeSelector op).symm.trans hb)]; simp
    · rw [placeSelector_of_encoder ((blockOf_decodeSelector op).symm.trans hb)]; simp
  | wirePrefix p =>
    have hplace : s.withFetchWord nbits w = placeForm (w % 2 ^ nbits) s := by rw [State.withFetchWord, placeWord, hc]
    rw [hplace]
    refine ⟨step_placeForm hc s, fun _ => by simp [placeForm], fun hb => ?_⟩
    cases (blockOf_decodePrefix p).symm.trans hb

end Sys2Proof.Machine
end

section
/-! PROOFS. The statements on byte buffers: the lanes answer what the contract `decode(bytes, order)` gives for the buffer
they carry the first nine bytes of (R42, R75, R80 to R83), in the order it was written in or the other one (R45, R145),
and a request repeated answers the same (R50, R93). -/

namespace Sys2Proof.Machine

/-- Settles O43: a step leaves the block asked and its output ports, which tell what a step returns, as they are. -/
theorem repeatedRequestIsIdempotent : Obligations.RepeatedRequestIsIdempotent := by
  intro s t h
  rcases step_next h with ⟨hb, d, hd, rfl⟩ | ⟨hb, e, he, rfl⟩
  · exact step_of_decOut (s := s.setDecResp d) hb hd
  · exact step_of_encOut (s := s.setEncResp e) hb he

/-! The contract, and the decode function as an answer to it. -/

theorem formLength_le (c : SizeClass) : c.formLength ≤ 9 := by cases c <;> decide

/-- What the contract gives for at least one byte: byte 0 alone tells how many of the bytes after it are the payload. -/
theorem contractDecode_cons (o : ByteOrder) (p : Byte) (bs : List Byte) :
    contractDecode o (p :: bs) =
      if bs.length < (classOfPrefix p).width then .truncated (classOfPrefix p).formLength (1 + bs.length)
      else if (classOfPrefix p).width = 0 then .ok (zext64 p) 1
      else .ok (assemble o (bs.take (classOfPrefix p).width)) (classOfPrefix p).formLength := by
  by_cases hshort : bs.length < (classOfPrefix p).width
  · simp [contractDecode, splitForm, hshort]
  have hpayload : (bs.take (classOfPrefix p).width).length = (classOfPrefix p).width :=
    List.length_take_of_le (Nat.not_lt.1 hshort)
  have hlen : (EncodedForm.mk (decodePrefix p) (bs.take (classOfPrefix p).width)).bytes.length =
      (classOfPrefix p).formLength := by
    rw [EncodedForm.bytes, List.length_cons, hpayload, SizeClass.formLength, Nat.add_comm]
  simp only [contractDecode, splitForm, hshort, if_false, hlen, formValue, ← List.length_eq_zero_iff, hpayload,
    prefixByteOf_decodePrefix]
  split
  · next hw => rw [SizeClass.formLength, hw]
  · rfl

/-- The decode function keeps the contract (R42): it is enough that the valid lanes hold the first nine bytes, since no form
is longer. -/
theorem decodeResult_eq_contractDecode {o : ByteOrder} {d : DecIn} {bytes : List Byte}
    (hlen : effLen d.len = min bytes.length 9) (hlanes : d.buf.toList.take (effLen d.len) = bytes.take 9) :
    decodeResult o d = contractDecode o bytes := by
  cases bytes with
  | nil => rw [decodeResult, if_pos (by simpa using hlen)]; rfl
  | cons p bs =>
    rw [List.length_cons] at hlen
    have hform := formLength_le (classOfPrefix p)
    have hw : (classOfPrefix p).formLength = 1 + (classOfPrefix p).width := rfl
    have hhead : d.buf[0] = p := by
      have h0 := congrArg (·[0]?) hlanes
      simpa [show 0 < effLen d.len by omega] using h0
    rw [decodeResult_pos (by omega), hhead, contractDecode_cons]
    by_cases hshort : bs.length < (classOfPrefix p).width
    · rw [formResult_short (by omega), if_pos hshort, show effLen d.len = 1 + bs.length by omega]
    · have hpayload : (d.buf.toList.drop 1).take (classOfPrefix p).width = bs.take (classOfPrefix p).width := by
        have h := congrArg (fun l => (l.drop 1).take (classOfPrefix p).width) hlanes
        simpa [List.drop_take, List.take_take, show (classOfPrefix p).width ≤ effLen d.len - 1 by omega,
          show (classOfPrefix p).width ≤ 8 by omega] using h
      rw [formResult, if_neg (by omega), if_neg hshort, hpayload]

/-- Settles O48: from nine on, `dec_len` stands for nine lanes, which are the first nine bytes. -/
theorem longBufferOnNineLanes : Obligations.LongBufferOnNineLanes := by
  intro s o bytes hk hbytes hlen hlanes
  have hnine : effLen s.decIn.len = min bytes.length 9 := by rw [effLen_of_ge hlen, Nat.min_eq_right hbytes]
  rw [exec_decodeOf_known hk, decodeResult_eq_contractDecode hnine]
  rw [hlanes, effLen_of_ge hlen, List.take_take, Nat.min_self]

/-! A host buffer on the lanes. -/

theorem effLen_eq_min (len : Count) : effLen len = min len.toNat 9 := by unfold effLen; split <;> omega

/-- As many lanes as there are bytes, at most nine, hold the bytes. -/
theorem lanesOfBytes_toList_take (l : List Byte) : (lanesOfBytes l).toList.take (min l.length 9) = l.take 9 := by
  refine List.ext_getElem (by simp [Nat.min_comm]) fun k hk hk' => ?_
  rw [List.length_take] at hk'
  simp [lanesOfBytes_getElem l k (by omega), show k < l.length by omega]

/-- Settles O47: `dec_len` is the number of bytes from the offset on, at most nine, and the lanes hold these. -/
theorem decodeStepMeetsTheContract : Obligations.DecodeStepMeetsTheContract := by
  intro s o bytes off
  have hlen : effLen (s.presentDecode o bytes off).decIn.len = min (bytes.drop off).length 9 := by
    simp only [State.presentDecode, State.setDecIn_decIn, effLen_eq_min, BitVec.toNat_ofNat, List.length_drop]
    omega
  have hlanes : (s.presentDecode o bytes off).decIn.buf.toList.take
      (effLen (s.presentDecode o bytes off).decIn.len) = (bytes.drop off).take 9 := by
    rw [hlen]; exact lanesOfBytes_toList_take _
  rw [← decodeResult_eq_contractDecode hlen hlanes, step_eq]
  simp only [State.presentDecode, State.setDecIn_block, State.setBlock_block, State.setDecIn_decIn, orderOfBit_orderBit]
  exact exec_decodeOf_known rfl

/-! An encoded form on the lanes. -/

/-- A value has a payload exactly when it is above the Tiny range (R61, R62). -/
theorem width_classOfValue_eq_zero_iff (v : Value) : (classOfValue v).width = 0 ↔ v.toNat ≤ 252 := by
  unfold classOfValue tinyMax
  split_ifs with h <;> simp [h, SizeClass.width]

/-- What the contract gives, in either order, for a form written in the order `o`: its payload read in the order asked. -/
theorem contractDecode_encodedForm (o o' : ByteOrder) (v : Value) :
    contractDecode o' (encodedForm o v) =
      if (classOfValue v).width = 0 then .ok (zext64 (prefixOfValue v)) 1
      else .ok (assemble o' (render o v (classOfValue v).width)) (classOfValue v).formLength := by
  rw [encodedForm, contractDecode_cons, classOfPrefix_prefixOfValue, render_length, if_neg (Nat.lt_irrefl _),
    List.take_of_length_le (render_length o v _).le]

/-- Lanes that hold an encoded form, with `dec_len` its length, are answered as the contract answers the form (R31, R42). -/
theorem decodeResult_of_encodedForm {o : ByteOrder} {v : Value} {d : DecIn} (o' : ByteOrder)
    (hlen : d.len = (encodeResult o v).len)
    (hlanes : ∀ (k : Nat) (h : k < 9), k < (encodeResult o v).len.toNat → d.buf[k] = (encodeResult o v).buf[k]) :
    decodeResult o' d = contractDecode o' (encodedForm o v) := by
  have hmax := formLength_le (classOfValue v)
  have heff : effLen d.len = (classOfValue v).formLength := by
    rw [effLen_eq_min, hlen, encodeResult_len_toNat, Nat.min_eq_left hmax]
  refine decodeResult_eq_contractDecode (by rw [heff, encodedForm_length, Nat.min_eq_left hmax]) ?_
  rw [heff, List.take_of_length_le ((encodedForm_length o v).trans_le hmax), ← encodeResult_form, EncOut.form,
    encodeResult_len_toNat]
  refine List.ext_getElem (by simp) fun k hk _ => ?_
  rw [List.length_take] at hk
  simpa using hlanes k (by omega) (by rw [encodeResult_len_toNat]; omega)

/-- A payload read in the other order is the reversed payload (R91). -/
theorem assemble_of_ne {o o' : ByteOrder} (h : o ≠ o') (p : List Byte) : assemble o' p = assemble o p.reverse := by
  cases o <;> cases o'
  · exact absurd rfl h
  · exact assemble_big p
  · rw [assemble_big, List.reverse_reverse]
  · exact absurd rfl h

/-- Settles O37: the prefix tells a complete form whatever the order, and the payload is read in the other order. -/
theorem wrongOrderIsNoError : Obligations.WrongOrderIsNoError := by
  intro s o o' hne hk hv
  refine ⟨_, exec_encodeOf_known hk, fun u hu hlen hlanes => ?_⟩
  have hw : (classOfValue s.encIn.value).width ≠ 0 := by rw [Ne, width_classOfValue_eq_zero_iff]; omega
  rw [exec_decodeOf_known hu, decodeResult_of_encodedForm o' hlen hlanes, contractDecode_encodedForm, if_neg hw,
    assemble_of_ne hne, encodeResult_form]
  rfl

end Sys2Proof.Machine
end

section
/-! PROOFS. The statements on code words and encoded forms: every code word is one row and encodes back (R64, R68, R69), a
form is read back off its bytes (R65), a step and a wire prefix run what the ports name (R69, R83), and the host's
ROUNDTRIP, EMIT and ADVANCE keep the value (R75, R108). -/

namespace Sys2Proof.Machine

open Sys2Proof.Laws

/-! The rows of the opcode table. -/

/-- The facts per instruction, of all fourteen rows. -/
theorem encoding_statement (i : Instr) : Encoding.Statement i := by
  cases i with
  | decodeLE => exact Encoding.decodeLE
  | decodeBE => exact Encoding.decodeBE
  | encodeLE => exact Encoding.encodeLE
  | encodeBE => exact Encoding.encodeBE
  | prefixTiny00 v => exact Encoding.prefixTiny00 v
  | prefixTiny80 v => exact Encoding.prefixTiny80 v
  | prefixTinyC0 v => exact Encoding.prefixTinyC0 v
  | prefixTinyE0 v => exact Encoding.prefixTinyE0 v
  | prefixTinyF0 v => exact Encoding.prefixTinyF0 v
  | prefixTinyF8 v => exact Encoding.prefixTinyF8 v
  | prefixTinyFC => exact Encoding.prefixTinyFC
  | prefixSmall => exact Encoding.prefixSmall
  | prefixMedium => exact Encoding.prefixMedium
  | prefixLarge => exact Encoding.prefixLarge

/-- The decoder reads every instruction back from its code word. -/
theorem decodeWord_encode (i : Instr) : decodeWord (encode i) = i := (encoding_statement i).2

/-- The code word of a wire prefix is its byte. -/
theorem encode_of_formClass {i : Instr} (h : i.formClass.isSome = true) : encode i = .wirePrefix (prefixByteOf i) := by
  cases i with
  | decodeLE | decodeBE | encodeLE | encodeBE => cases h
  | _ => rfl

/-- Encoding what is read from a code word gives the word back: no bit is dropped. -/
theorem encode_decodeWord (c : CodeWord) : encode (decodeWord c) = c := by
  cases c with
  | reqSelect op => revert op; decide
  | wirePrefix p =>
    rw [decodeWord, encode_of_formClass (by rw [formClass_decodePrefix]; rfl), prefixByteOf_decodePrefix]

/-- Settles O4: a code word is the word of the instruction read from it, whose word matches its own row alone. -/
theorem everyCodeWordIsOneRow : Obligations.EveryCodeWordIsOneRow := by
  intro c
  have hrow := (encoding_statement (decodeWord c)).1
  rw [encode_decodeWord] at hrow
  exact ⟨hrow, encode_decodeWord c⟩

/-- Settles O6: the words are evaluated. -/
theorem writtenOutWordsDecode : Obligations.WrittenOutWordsDecode :=
  ⟨rfl, rfl, rfl, rfl, rfl, rfl, rfl, rfl⟩

/-! The size classes. -/

/-- Settles O7: the ranges are tested from the lowest on, and each test fails only above its range. -/
theorem classOfValueByRange : Obligations.ClassOfValueByRange := by
  intro v
  unfold classOfValue tinyMax smallMax mediumMax
  split_ifs with htiny hsmall hmedium
  · simp; omega
  · simp; omega
  · simp; omega
  · simp; omega

/-- Settles O8: the row of a byte has the class of the byte, and a byte above 254 is 255. -/
theorem prefixRowsSelectTheClass : Obligations.PrefixRowsSelectTheClass := by
  intro p
  have hp := p.isLt
  simp only [decodeWord, formClass_decodePrefix, Option.some_inj, and_true]
  unfold classOfPrefix
  split_ifs with htiny hsmall hmedium
  · simp; omega
  · simp; omega
  · simp; omega
  · simp; omega

/-- A value with a payload fits its class's payload width (R62). -/
theorem toNat_lt_of_width_ne_zero {v : Value} (h : (classOfValue v).width ≠ 0) :
    v.toNat < 2 ^ (8 * (classOfValue v).width) := by
  obtain ⟨-, hsmall, hmedium, -⟩ := classOfValueByRange v
  cases hc : classOfValue v with
  | tiny => rw [hc] at h; exact absurd rfl h
  | small => have := (hsmall.1 hc).2; simp only [SizeClass.width]; omega
  | medium => have := (hmedium.1 hc).2; simp only [SizeClass.width]; omega
  | large => exact v.isLt

/-- The prefix of a Tiny value is the value (R100). -/
theorem zext64_prefixOfValue {v : Value} (h : (classOfValue v).width = 0) : zext64 (prefixOfValue v) = v := by
  have hv := (width_classOfValue_eq_zero_iff v).1 h
  have hc := ((classOfValueByRange v).1).2 hv
  apply BitVec.eq_of_toNat_eq
  simp only [prefixOfValue, hc, zext64, BitVec.toNat_setWidth, BitVec.extractLsb'_toNat]
  omega

/-! Encoded forms and their bytes. -/

/-- A form is well formed when its head selects a class and its payload has that class's width (R65). -/
theorem wellFormed_iff (f : EncodedForm) :
    f.wellFormed = true ↔ ∃ c, f.head.formClass = some c ∧ f.payload.length = c.width := by
  unfold EncodedForm.wellFormed EncodedForm.headIsWire EncodedForm.payloadFits
  cases f.head.formClass <;> simp

/-- A wire prefix is read back from its byte. -/
theorem decodePrefix_prefixByteOf {i : Instr} (h : i.formClass.isSome = true) : decodePrefix (prefixByteOf i) = i := by
  have hi := decodeWord_encode i
  rwa [encode_of_formClass h] at hi

/-- The byte of a wire prefix selects the class of its row (R64). -/
theorem classOfPrefix_prefixByteOf {i : Instr} {c : SizeClass} (h : i.formClass = some c) :
    classOfPrefix (prefixByteOf i) = c := by
  have hp := formClass_decodePrefix (prefixByteOf i)
  rw [decodePrefix_prefixByteOf (by rw [h]; rfl), h] at hp
  exact (Option.some_inj.1 hp).symm

/-- The payload is as wide as byte 0 tells, so that many bytes are taken and the rest is left. -/
theorem splitForm_bytes_append {f : EncodedForm} (hf : f.wellFormed = true) (rest : List Byte) :
    splitForm (f.bytes ++ rest) = .form f rest := by
  obtain ⟨c, hc, hwidth⟩ := (wellFormed_iff f).1 hf
  have hhead : decodePrefix (prefixByteOf f.head) = f.head := decodePrefix_prefixByteOf (by rw [hc]; rfl)
  have henough : ¬ (f.payload ++ rest).length < c.width := by rw [List.length_append]; omega
  rw [EncodedForm.bytes, List.cons_append, splitForm, classOfPrefix_prefixByteOf hc, if_neg henough, hhead,
    List.take_left' hwidth, List.drop_left' hwidth]

/-- All that reading a form off bytes can give: the prefix of byte 0, as many bytes after it as it selects, and the rest. -/
theorem splitForm_eq_form {bytes rest : List Byte} {f : EncodedForm} (h : splitForm bytes = .form f rest) :
    ∃ p bs, bytes = p :: bs ∧ (classOfPrefix p).width ≤ bs.length ∧
      f = ⟨decodePrefix p, bs.take (classOfPrefix p).width⟩ ∧ rest = bs.drop (classOfPrefix p).width := by
  cases bytes with
  | nil => cases h
  | cons p bs =>
    rw [splitForm] at h
    split at h
    · cases h
    · next henough => cases h; exact ⟨p, bs, rfl, Nat.not_lt.1 henough, rfl, rfl⟩

theorem EncodedForm.length_bytes (f : EncodedForm) : f.bytes.length = 1 + f.payload.length :=
  Nat.add_comm _ _

theorem formLength_mem (c : SizeClass) : c.formLength ∈ [1, 3, 5, 9] := by cases c <;> decide

/-- Settles O5: taking what byte 0 tells and appending the rest are each other's inverse. -/
theorem formBytesReadBack : Obligations.FormBytesReadBack := by
  refine ⟨fun f rest hf => splitForm_bytes_append hf rest, fun bytes rest f h => ?_⟩
  obtain ⟨p, bs, rfl, henough, rfl, rfl⟩ := splitForm_eq_form h
  have hpayload := List.length_take_of_le henough
  have hlen : (EncodedForm.mk (decodePrefix p) (bs.take (classOfPrefix p).width)).bytes.length =
      (classOfPrefix p).formLength := by
    rw [EncodedForm.length_bytes, hpayload, SizeClass.formLength]
  have hbytes : (EncodedForm.mk (decodePrefix p) (bs.take (classOfPrefix p).width)).bytes ++
      bs.drop (classOfPrefix p).width = p :: bs := by
    rw [EncodedForm.bytes, prefixByteOf_decodePrefix, List.cons_append, List.take_append_drop]
  exact ⟨(wellFormed_iff _).2 ⟨_, formClass_decodePrefix p, hpayload⟩, hbytes, hlen ▸ formLength_mem _, hlen⟩

/-! What a step runs. -/

/-- A step runs the operation of the selector on the ports. -/
theorem step_of_selector {s : State} {op : BitVec 2} (h : s.selector = op) : step s = exec (decodeSelector op) s := by
  rw [step, fetchOperation, h]

/-- With the decoder asked the selector is 0 and `dec_order` (R69). -/
theorem selector_of_decoder {s : State} (h : s.block = .decoder) : s.selector = 0#1 ++ s.decIn.order := by
  rw [State.selector, State.orderPort, h]; rfl

/-- With the encoder asked the selector is 1 and `enc_order` (R69). -/
theorem selector_of_encoder {s : State} (h : s.block = .encoder) : s.selector = 1#1 ++ s.encIn.order := by
  rw [State.selector, State.orderPort, h]; rfl

/-- Settles O1: the unit bit and the order bit make the selector, and a step runs what it names. -/
theorem stepRunsSelectedOperation : Obligations.StepRunsSelectedOperation := by
  intro s
  refine ⟨fun hb ho => ?_, fun hb ho => ?_, fun hb ho => ?_, fun hb ho => ?_⟩
  · have hsel : s.selector = 0b00#2 := by rw [selector_of_decoder hb, ho]; rfl
    exact ⟨hsel, step_of_selector hsel⟩
  · have hsel : s.selector = 0b01#2 := by rw [selector_of_decoder hb, ho]; rfl
    exact ⟨hsel, step_of_selector hsel⟩
  · have hsel : s.selector = 0b10#2 := by rw [selector_of_encoder hb, ho]; rfl
    exact ⟨hsel, step_of_selector hsel⟩
  · have hsel : s.selector = 0b11#2 := by rw [selector_of_encoder hb, ho]; rfl
    exact ⟨hsel, step_of_selector hsel⟩

/-- Settles O2: with a valid byte the prefix read is lane 0's, and the decoder's request is what that prefix runs. -/
theorem stepRunsWirePrefixOnLaneZero : Obligations.StepRunsWirePrefixOnLaneZero := by
  intro s hb hlen
  exact ⟨if_neg (mt (effLen_eq_zero_iff _).1 hlen), step_eq_exec_decodePrefix hb⟩

/-! The wire prefixes run as instructions. -/

/-- A wire prefix run with known inputs and a valid byte answers from that prefix on, in the order on `dec_order` (R83). -/
theorem exec_wirePrefix_known {i : Instr} {s : State} (hi : i.formClass.isSome = true) (hk : s.DecKnown)
    (hlen : 1 ≤ effLen s.decIn.len) :
    exec i s = .next (s.setDecResp (DecOut.ofResult
      (formResult (orderOfBit s.decIn.order) (prefixByteOf i) s.decIn))) := by
  rw [exec_of_formClass hi, prefixRequest_eq, if_pos hk, prefixResult, if_neg (by omega)]

/-- Two bit fields side by side, as numbers. -/
theorem toNat_append_eq_add {m n : Nat} (hi : BitVec m) (lo : BitVec n) :
    (hi ++ lo).toNat = hi.toNat * 2 ^ n + lo.toNat := by
  rw [BitVec.toNat_append, ← Nat.shiftLeft_add_eq_or_of_lt lo.isLt, Nat.shiftLeft_eq]

/-- A Tiny prefix answers the number its byte is, 1 byte consumed. -/
theorem exec_tinyPrefix {i : Instr} {s : State} {n : Nat} (hi : i.formClass = some .tiny) (hk : s.DecKnown)
    (hlen : 1 ≤ s.decIn.len.toNat) (hn : (prefixByteOf i).toNat = n) :
    exec i s = .next (s.setDecResp ⟨0, BitVec.ofNat 64 n, 1, 0, 0⟩) := by
  have hvalid : 1 ≤ effLen s.decIn.len := (le_effLen_iff (by decide) _).2 hlen
  have hvalue : zext64 (prefixByteOf i) = BitVec.ofNat 64 n := by rw [← hn, BitVec.ofNat_toNat, zext64]
  rw [exec_wirePrefix_known (by rw [hi]; rfl) hk hvalid, formResult_tiny (classOfPrefix_prefixByteOf hi) hvalid, hvalue]
  rfl

/-- Settles O15: the byte of a Tiny row is its constant bits with the `v` bits after them. -/
theorem tinyPrefixesAnswerTheirByte : Obligations.TinyPrefixesAnswerTheirByte := by
  intro s hk hlen
  refine ⟨fun v => ?_, fun v => ?_, fun v => ?_, fun v => ?_, fun v => ?_, fun v => ?_, ?_⟩
  · exact exec_tinyPrefix rfl hk hlen ((toNat_append_eq_add 0b0#1 v).trans (Nat.zero_add _))
  · exact exec_tinyPrefix rfl hk hlen (toNat_append_eq_add 0b10#2 v)
  · exact exec_tinyPrefix rfl hk hlen (toNat_append_eq_add 0b110#3 v)
  · exact exec_tinyPrefix rfl hk hlen (toNat_append_eq_add 0b1110#4 v)
  · exact exec_tinyPrefix rfl hk hlen (toNat_append_eq_add 0b11110#5 v)
  · exact exec_tinyPrefix rfl hk hlen (toNat_append_eq_add 0b111110#6 v)
  · exact exec_tinyPrefix rfl hk hlen rfl

/-- The order bit says whether the payload is read as it stands or reversed (R70, R82). -/
theorem assemble_orderOfBit (b : BitVec 1) (p : List Byte) :
    assemble (orderOfBit b) p = if b = 0 then assemble .littleEndian p else assemble .littleEndian p.reverse := by
  unfold orderOfBit
  split
  · rfl
  · exact assemble_big p

/-- Settles O16: a complete form is answered with its payload lanes, side by side in the order on `dec_order`. -/
theorem sentinelPrefixesAnswerPayload : Obligations.SentinelPrefixesAnswerPayload := by
  intro s hk
  refine ⟨fun hlen => ?_, fun hlen => ?_, fun hlen => ?_⟩
  · have hvalid : 3 ≤ effLen s.decIn.len := (le_effLen_iff (by decide) _).2 hlen
    rw [exec_wirePrefix_known rfl hk (by omega), formResult_small (classOfPrefix_prefixByteOf rfl) hvalid,
      assemble_orderOfBit, ← assemble_little_two, ← assemble_little_two]
    rfl
  · have hvalid : 5 ≤ effLen s.decIn.len := (le_effLen_iff (by decide) _).2 hlen
    rw [exec_wirePrefix_known rfl hk (by omega), formResult_medium (classOfPrefix_prefixByteOf rfl) hvalid,
      assemble_orderOfBit, ← assemble_little_four, ← assemble_little_four]
    rfl
  · have hvalid : 9 ≤ effLen s.decIn.len := (le_effLen_iff (by decide) _).2 hlen
    rw [exec_wirePrefix_known rfl hk (by omega), formResult_large (classOfPrefix_prefixByteOf rfl) hvalid,
      assemble_orderOfBit, ← assemble_little_eight, ← assemble_little_eight]
    rfl

/-! The host's pseudo-operations. -/

/-- Settles O51: the status tells which of ADVANCE's cases applies. -/
theorem advanceMovesOnlyAfterOk : Obligations.AdvanceMovesOnlyAfterOk := by
  intro e
  refine ⟨fun d hd => ⟨fun hs => ?_, fun hs => ?_, fun hs => ?_, fun hs => ?_⟩, fun hnone => ?_⟩
  · simp [advance, hd, hs, Status.ofCode]
  · simp [advance, hd, hs, Status.ofCode]
  · simp [advance, hd, hs, Status.ofCode]
  · simp [advance, hd, hs, Status.ofCode]
  · rw [advance, hnone]

/-- The contract gives a value back from its encoded form in the order it was written in (R108). -/
theorem contractDecode_encodedForm_self (o : ByteOrder) (v : Value) :
    contractDecode o (encodedForm o v) = .ok v (classOfValue v).formLength := by
  rw [contractDecode_encodedForm]
  split
  · next hw => rw [zext64_prefixOfValue hw, SizeClass.formLength, hw]
  · next hw => rw [assemble_render o _ v (toNat_lt_of_width_ne_zero hw)]

/-- A step that serves a presented value returns its nine lanes and length. -/
theorem step_presentEncode (s : State) (o : ByteOrder) (v : Value) :
    step (s.presentEncode o v) = .next ((s.presentEncode o v).setEncResp (encodeResult o v)) := by
  refine step_of_encOut rfl (encOut_eq_some_iff.2 ⟨rfl, ?_⟩)
  simp [State.presentEncode]

/-- A step that serves a presented buffer whose bytes from the offset on are a value's form returns OK with the value (R42). -/
theorem step_presentDecode_encodedForm (s : State) {o : ByteOrder} {bytes : List Byte} {off : Nat} {v : Value}
    (h : bytes.drop off = encodedForm o v) :
    step (s.presentDecode o bytes off) = .next ((s.presentDecode o bytes off).setDecResp
      ⟨0, v, BitVec.ofNat 4 (classOfValue v).formLength, 0, 0⟩) := by
  rw [decodeStepMeetsTheContract, h, contractDecode_encodedForm_self]
  rfl

/-- A step that answers is continued with its state. -/
theorem afterStep_of_next {s t : State} (h : step s = .next t) (k : State → HostResult) : afterStep s k = k t := by
  rw [afterStep, h]

/-- The form on record after an encode is the encoded form. -/
theorem encForm_setEncResp (s : State) (o : ByteOrder) (v : Value) :
    (s.setEncResp (encodeResult o v)).encForm = encodedForm o v := encodeResult_form o v

/-- Settles O52: the encoder's form is presented to the decoder, which gives the value back. -/
theorem roundTripGivesTheValueBack : Obligations.RoundTripGivesTheValueBack := by
  intro e o v
  rw [roundTrip, afterStep_of_next (step_presentEncode _ o v), encForm_setEncResp,
    afterStep_of_next (step_presentDecode_encodedForm _ rfl)]
  exact ⟨_, rfl, rfl, rfl, rfl⟩

/-- EMIT appends the encoded form. -/
theorem emit_eq (o : ByteOrder) (v : Value) (e : Embedding) :
    emit o v e = .next { e with
      blocks := (e.blocks.presentEncode o v).setEncResp (encodeResult o v), buffer := e.buffer ++ encodedForm o v } := by
  rw [emit, afterStep_of_next (step_presentEncode _ o v), encForm_setEncResp]

/-- DECODE where the bytes from the offset on are a value's form puts OK with the value on record. -/
theorem hostDecode_encodedForm {o : ByteOrder} {v : Value} {e : Embedding}
    (h : e.buffer.drop e.offset = encodedForm o v) :
    hostDecode o e = .next { e with
      blocks := (e.blocks.presentDecode o e.buffer e.offset).setDecResp
        ⟨0, v, BitVec.ofNat 4 (classOfValue v).formLength, 0, 0⟩ } := by
  rw [hostDecode, afterStep_of_next (step_presentDecode_encodedForm _ h)]

/-- Settles O53: at the offset stands the form emitted, the decoder gives its value, and its length leads to the end. -/
theorem emittedValueIsParsed : Obligations.EmittedValueIsParsed := by
  intro e o v hoff
  have hdrop : (e.buffer ++ encodedForm o v).drop e.offset = encodedForm o v := List.drop_left' hoff.symm
  refine ⟨_, _, _, _, emit_eq o v e, hostDecode_encodedForm hdrop,
    ((advanceMovesOnlyAfterOk _).1 _ rfl).1 rfl, rfl, rfl, rfl, rfl, rfl, ?_⟩
  simp only [toNat_ofNat_formLength, List.length_append, encodedForm_length, hoff]

end Sys2Proof.Machine
end

section
/-! PROOFS. The statements on decode requests: what a complete form is answered in each byte order (R82 to R86, R91), which
inputs the answer depends on (R81, R90), what an OK says of the prefix (R87, R88), and that no request faults (R92, R123). -/

namespace Sys2Proof.Machine

/-! The answer as a function of the valid lanes. -/

/-- The value a complete form on the lanes holds: the prefix itself when it has no payload, else the payload lanes (R83). -/
def lanesValue (o : ByteOrder) (b : Lanes) : Value :=
  if (classOfPrefix b[0]).width = 0 then zext64 b[0]
  else assemble o ((b.toList.drop 1).take (classOfPrefix b[0]).width)

theorem lanesValue_of_tiny {b : Lanes} (h : classOfPrefix b[0] = .tiny) (o : ByteOrder) :
    lanesValue o b = zext64 b[0] := by
  rw [lanesValue, h]; rfl

theorem lanesValue_of_payload {b : Lanes} {c : SizeClass} (h : classOfPrefix b[0] = c) (hc : c ≠ .tiny) (o : ByteOrder) :
    lanesValue o b = assemble o ((b.toList.drop 1).take c.width) := by
  have hw : c.width ≠ 0 := by
    cases c with
    | tiny => exact absurd rfl hc
    | small | medium | large => decide
  rw [lanesValue, h, if_neg hw]

theorem formLength_pos (c : SizeClass) : 1 ≤ c.formLength := Nat.le_add_right 1 c.width

/-- A decode with all of the form's bytes valid is OK (R83, R125). -/
theorem decodeResult_complete {o : ByteOrder} {d : DecIn} (h : (classOfPrefix d.buf[0]).formLength ≤ effLen d.len) :
    decodeResult o d = .ok (lanesValue o d.buf) (classOfPrefix d.buf[0]).formLength := by
  rw [decodeResult_pos ((formLength_pos _).trans h), formResult, if_neg (Nat.not_lt.2 h), lanesValue]
  split
  · next hw => rw [SizeClass.formLength, hw]
  · rfl

/-- A decode is OK only with all of the form's bytes valid (R125). -/
theorem decodeResult_status_eq_zero_iff (o : ByteOrder) (d : DecIn) :
    (DecOut.ofResult (decodeResult o d)).status = 0 ↔ (classOfPrefix d.buf[0]).formLength ≤ effLen d.len := by
  refine ⟨fun h => Nat.le_of_not_lt fun hshort => ?_, fun h => by rw [decodeResult_complete h]; rfl⟩
  by_cases hempty : effLen d.len = 0
  · rw [decodeResult, if_pos hempty] at h; cases h
  · rw [decodeResult_pos (Nat.pos_of_ne_zero hempty), formResult_short hshort] at h; cases h

/-- The decode function sees the valid lanes and no other (R41, R42). -/
theorem decodeResult_eq_contractDecode_take (o : ByteOrder) (d : DecIn) :
    decodeResult o d = contractDecode o (d.buf.toList.take (effLen d.len)) := by
  have hmax := effLen_le d.len
  apply decodeResult_eq_contractDecode
  · rw [List.length_take, Vector.length_toList, Nat.min_eq_left hmax, Nat.min_eq_left hmax]
  · rw [List.take_take, Nat.min_eq_right hmax]

/-- A known request with a complete form is answered OK with the form's value and length (R83). -/
theorem exec_decodeOf_complete {o : ByteOrder} {s : State} {c : SizeClass} (hk : s.DecKnown)
    (hc : classOfPrefix s.decIn.buf[0] = c) (hlen : c.formLength ≤ s.decIn.len.toNat) :
    exec (decodeOf o) s = .next (s.setDecResp ⟨0, lanesValue o s.decIn.buf, BitVec.ofNat 4 c.formLength, 0, 0⟩) := by
  subst hc
  rw [exec_decodeOf_known hk, decodeResult_complete ((le_effLen_iff (formLength_le _) _).2 hlen)]
  rfl

/-- All an OK says: the form was complete, and its value and length were returned (R83, R87). -/
theorem exec_decodeOf_ok {o : ByteOrder} {s t : State} {d : DecOut} (h : exec (decodeOf o) s = .next t)
    (hd : t.decResp = some d) (hs : d.status = 0) :
    (classOfPrefix s.decIn.buf[0]).formLength ≤ effLen s.decIn.len ∧
      d = ⟨0, lanesValue o s.decIn.buf, BitVec.ofNat 4 (classOfPrefix s.decIn.buf[0]).formLength, 0, 0⟩ := by
  obtain ⟨-, rfl⟩ := exec_decodeOf_next h
  cases hd
  have hcomplete := (decodeResult_status_eq_zero_iff _ _).1 hs
  exact ⟨hcomplete, by rw [decodeResult_complete hcomplete]; rfl⟩

/-! The value of each class in each order. -/

theorem classOfPrefix_of_le {p : Byte} (h : p.toNat ≤ 252) : classOfPrefix p = .tiny := if_pos h

theorem exec_decodeOf_tiny (o : ByteOrder) {s : State} (hk : s.DecKnown) (hp : s.decIn.buf[0].toNat ≤ 252)
    (hlen : 1 ≤ s.decIn.len.toNat) :
    exec (decodeOf o) s = .next (s.setDecResp ⟨0, s.decIn.buf[0].setWidth 64, 1, 0, 0⟩) := by
  have hc := classOfPrefix_of_le hp
  rw [exec_decodeOf_complete hk hc hlen, lanesValue_of_tiny hc]
  rfl

theorem exec_decodeOf_small (o : ByteOrder) {s : State} (hk : s.DecKnown) (hp : s.decIn.buf[0] = 0xFD)
    (hlen : 3 ≤ s.decIn.len.toNat) :
    exec (decodeOf o) s = .next (s.setDecResp ⟨0, assemble o [s.decIn.buf[1], s.decIn.buf[2]], 3, 0, 0⟩) := by
  have hc : classOfPrefix s.decIn.buf[0] = .small := by rw [hp]; rfl
  rw [exec_decodeOf_complete hk hc hlen, lanesValue_of_payload hc (by decide), SizeClass.width, payload_two]
  rfl

theorem exec_decodeOf_medium (o : ByteOrder) {s : State} (hk : s.DecKnown) (hp : s.decIn.buf[0] = 0xFE)
    (hlen : 5 ≤ s.decIn.len.toNat) :
    exec (decodeOf o) s = .next (s.setDecResp
      ⟨0, assemble o [s.decIn.buf[1], s.decIn.buf[2], s.decIn.buf[3], s.decIn.buf[4]], 5, 0, 0⟩) := by
  have hc : classOfPrefix s.decIn.buf[0] = .medium := by rw [hp]; rfl
  rw [exec_decodeOf_complete hk hc hlen, lanesValue_of_payload hc (by decide), SizeClass.width, payload_four]
  rfl

theorem exec_decodeOf_large (o : ByteOrder) {s : State} (hk : s.DecKnown) (hp : s.decIn.buf[0] = 0xFF)
    (hlen : 9 ≤ s.decIn.len.toNat) :
    exec (decodeOf o) s = .next (s.setDecResp
      ⟨0, assemble o [s.decIn.buf[1], s.decIn.buf[2], s.decIn.buf[3], s.decIn.buf[4],
          s.decIn.buf[5], s.decIn.buf[6], s.decIn.buf[7], s.decIn.buf[8]], 9, 0, 0⟩) := by
  have hc : classOfPrefix s.decIn.buf[0] = .large := by rw [hp]; rfl
  rw [exec_decodeOf_complete hk hc hlen, lanesValue_of_payload hc (by decide), SizeClass.width, payload_eight]
  rfl

/-- Settles O13: a complete form is answered with its payload lanes, which in LittleEndian stand as they are. -/
theorem decodeLittleEndianValue : Obligations.DecodeLittleEndianValue := by
  intro s hk
  refine ⟨exec_decodeOf_tiny .littleEndian hk, fun hp hlen => ?_, fun hp hlen => ?_, fun hp hlen => ?_⟩
  · rw [← assemble_little_two]; exact exec_decodeOf_small .littleEndian hk hp hlen
  · rw [← assemble_little_four]; exact exec_decodeOf_medium .littleEndian hk hp hlen
  · rw [← assemble_little_eight]; exact exec_decodeOf_large .littleEndian hk hp hlen

theorem assemble_big_two (a b : Byte) : assemble .bigEndian [a, b] = (a ++ b).setWidth 64 :=
  (assemble_big [a, b]).trans (assemble_little_two b a)

theorem assemble_big_four (a b c d : Byte) : assemble .bigEndian [a, b, c, d] = (a ++ b ++ c ++ d).setWidth 64 :=
  (assemble_big [a, b, c, d]).trans (assemble_little_four d c b a)

theorem assemble_big_eight (a b c d e f g h : Byte) :
    assemble .bigEndian [a, b, c, d, e, f, g, h] = (a ++ b ++ c ++ d ++ e ++ f ++ g ++ h : BitVec 64) :=
  (assemble_big [a, b, c, d, e, f, g, h]).trans (assemble_little_eight h g f e d c b a)

/-- Settles O14: a complete form is answered with its payload lanes, which in BigEndian stand reversed. -/
theorem decodeBigEndianValue : Obligations.DecodeBigEndianValue := by
  intro s hk
  refine ⟨exec_decodeOf_tiny .bigEndian hk, fun hp hlen => ?_, fun hp hlen => ?_, fun hp hlen => ?_⟩
  · rw [← assemble_big_two]; exact exec_decodeOf_small .bigEndian hk hp hlen
  · rw [← assemble_big_four]; exact exec_decodeOf_medium .bigEndian hk hp hlen
  · rw [← assemble_big_eight]; exact exec_decodeOf_large .bigEndian hk hp hlen

/-! The payload lanes. -/

/-- Payload byte `i` is on lane `1 + i` (R41). -/
theorem getElem_payload (b : Lanes) {w i : Nat} (hi : i < ((b.toList.drop 1).take w).length) (h : 1 + i < 9) :
    ((b.toList.drop 1).take w)[i] = b[1 + i] := by
  simp [Nat.add_comm]

theorem length_payload (b : Lanes) (c : SizeClass) : ((b.toList.drop 1).take c.width).length = c.width := by
  cases c <;> simp [SizeClass.width]

/-- Settles O18: payload lanes that hold a value placed as R66 says are its rendering, which Assemble inverts. -/
theorem decodeAcceptsEveryPayloadValue : Obligations.DecodeAcceptsEveryPayloadValue := by
  intro s o c u hk hc hu hclass hlen hlanes
  have hpayload : (s.decIn.buf.toList.drop 1).take c.width = render o u c.width := by
    refine List.ext_getElem (by rw [length_payload, render_length]) fun i hi hi' => ?_
    have hform := formLength_le c
    rw [render_length] at hi'
    rw [SizeClass.formLength] at hform
    rw [getElem_payload _ hi (by omega), hlanes i (by omega) hi']
    cases o <;> simp [render, byteAt, payloadShift]
  rw [exec_decodeOf_complete hk hclass hlen, lanesValue_of_payload hclass hc, hpayload, assemble_render o _ u hu]

/-! What the answer depends on. -/

theorem decodeResult_congr_len (o : ByteOrder) (d : DecIn) {len : Count} (h : effLen len = effLen d.len) :
    decodeResult o { d with len := len } = decodeResult o d := by
  simp only [decodeResult, formResult, h]

theorem prefixResult_congr_len (p : Byte) (d : DecIn) {len : Count} (h : effLen len = effLen d.len) :
    prefixResult p { d with len := len } = prefixResult p d := by
  simp only [prefixResult, formResult, h]

/-- Settles O19: the decode function and that of a wire prefix both read `dec_len` as the effective length alone. -/
theorem decodeUsesEffectiveLength : Obligations.DecodeUsesEffectiveLength := by
  intro s len i hi hk hge hlt
  have heff : effLen len = effLen s.decIn.len := by
    rcases Nat.lt_or_ge len.toNat 9 with h | h
    · rw [hlt h]
    · rw [effLen_of_ge h, effLen_of_ge (hge h)]
  refine ⟨effLen_le len, ?_⟩
  rcases decoder_cases i hi with ⟨o, rfl⟩ | hwire
  · refine ⟨_, _, exec_decodeOf_known hk, exec_decodeOf_known hk, ?_⟩
    simp only [State.setDecResp_decResp, State.setDecIn_decIn, decodeResult_congr_len o s.decIn heff]
  · simp only [exec_of_formClass hwire, prefixRequest_eq]
    refine ⟨_, _, if_pos hk, if_pos hk, ?_⟩
    simp only [State.setDecResp_decResp, State.setDecIn_decIn, prefixResult_congr_len _ s.decIn heff]

/-- Lanes that agree below `n` give the same first `n` bytes. -/
theorem take_toList_congr {b b' : Lanes} {n : Nat} (h : ∀ (k : Nat) (hk : k < 9), k < n → b'[k] = b[k]) :
    b'.toList.take n = b.toList.take n := by
  refine List.ext_getElem (by simp) fun k hk _ => ?_
  rw [List.length_take, Vector.length_toList] at hk
  simpa using h k (by omega) (by omega)

/-- The value is read off the lanes of the form alone. -/
theorem lanesValue_congr {b b' : Lanes} {c : SizeClass} (o : ByteOrder) (hc : classOfPrefix b[0] = c)
    (h : ∀ (k : Nat) (hk : k < 9), k < c.formLength → b'[k] = b[k]) : lanesValue o b' = lanesValue o b := by
  have hhead : b'[0] = b[0] := h 0 (by decide) (formLength_pos c)
  have hpayload : (b'.toList.drop 1).take c.width = (b.toList.drop 1).take c.width := by
    have hform := congrArg (List.drop 1) (take_toList_congr h)
    simpa only [SizeClass.formLength, List.drop_take, Nat.add_sub_cancel_left] using hform
  rw [lanesValue, lanesValue, hhead, hc, hpayload]

/-- Settles O22: an OK reads the form's lanes alone, and every answer reads the valid lanes alone. -/
theorem lanesAfterTheFormDoNotMatter : Obligations.LanesAfterTheFormDoNotMatter := by
  intro s s' t d o _ hk' h hd
  refine ⟨fun hok hlen hlanes => ?_, fun _ hlen hlanes => ?_⟩
  · obtain ⟨hcomplete, rfl⟩ := exec_decodeOf_ok h hd hok
    rw [toNat_ofNat_formLength] at hlanes
    have hclass := congrArg classOfPrefix (hlanes 0 (by decide) (formLength_pos _))
    have hvalid := ((le_effLen_iff (formLength_le _) _).1 hcomplete).trans hlen
    rw [exec_decodeOf_complete hk' hclass hvalid, lanesValue_congr o rfl hlanes]
  · obtain ⟨-, rfl⟩ := exec_decodeOf_next h
    cases hd
    rw [exec_decodeOf_known hk', decodeResult_eq_contractDecode_take, decodeResult_eq_contractDecode_take o s.decIn, hlen,
      take_toList_congr hlanes]

/-- A Tiny prefix is decoded the same in both orders (R91). -/
theorem decodeResult_of_tiny {d : DecIn} (h : classOfPrefix d.buf[0] = .tiny) (o o' : ByteOrder) :
    decodeResult o d = decodeResult o' d := by
  by_cases hempty : effLen d.len = 0
  · rw [decodeResult, decodeResult, if_pos hempty, if_pos hempty]
  · have hvalid := Nat.pos_of_ne_zero hempty
    rw [decodeResult_pos hvalid, decodeResult_pos hvalid, formResult_tiny h hvalid, formResult_tiny h hvalid]

/-- Payload lanes that are each other's reversal are each other's reversal as byte sequences. -/
theorem payload_reverse {b b' : Lanes} {c : SizeClass}
    (h : ∀ (i : Nat) (_ : i < c.width) (h1 : 1 + i < 9) (h2 : c.width - i < 9), b'[1 + i] = b[c.width - i]) :
    (b'.toList.drop 1).take c.width = ((b.toList.drop 1).take c.width).reverse := by
  refine List.ext_getElem (by rw [List.length_reverse, length_payload, length_payload]) fun i hi _ => ?_
  have hform : 1 + c.width ≤ 9 := formLength_le c
  have hiw : i < c.width := by rwa [length_payload] at hi
  rw [List.getElem_reverse, getElem_payload b' hi (by omega), getElem_payload b _ (by rw [length_payload]; omega),
    h i hiw (by omega) (by omega)]
  congr 1
  rw [length_payload]; omega

/-- Reversed payload lanes read in LittleEndian hold the value the lanes hold in BigEndian (R91). -/
theorem lanesValue_reverse {b b' : Lanes} (hhead : b'[0] = b[0])
    (h : ∀ (i : Nat) (_ : i < (classOfPrefix b[0]).width) (h1 : 1 + i < 9) (h2 : (classOfPrefix b[0]).width - i < 9),
      b'[1 + i] = b[(classOfPrefix b[0]).width - i]) :
    lanesValue .littleEndian b' = lanesValue .bigEndian b := by
  rw [lanesValue, lanesValue, hhead, payload_reverse h, assemble_big]

/-- Settles O23: a Tiny prefix is the value whatever the order, and a payload in BigEndian is its reversal in LittleEndian. -/
theorem byteOrderReversesThePayload : Obligations.ByteOrderReversesThePayload := by
  refine ⟨fun s htiny => ?_, fun s s' hk hk' hhead hlen hcomplete hlanes => ?_⟩
  · have h := exec_decodeOf .littleEndian s
    rw [decodeResult_of_tiny htiny .littleEndian .bigEndian] at h
    exact h.trans (exec_decodeOf .bigEndian s).symm
  · have hbig := exec_decodeOf_complete (o := .bigEndian) hk rfl hcomplete
    have hlittle := exec_decodeOf_complete (o := .littleEndian) hk' (congrArg classOfPrefix hhead) (hlen ▸ hcomplete)
    rw [lanesValue_reverse hhead hlanes] at hlittle
    exact ⟨_, rfl, hbig, hlittle⟩

/-! What an OK says of the prefix. -/

/-- Settles O20: an OK returns the form's length, and the form was complete. -/
theorem consumedIsTheFormLength : Obligations.ConsumedIsTheFormLength := by
  intro s t d o h hd hs
  obtain ⟨hcomplete, rfl⟩ := exec_decodeOf_ok h hd hs
  rw [toNat_ofNat_formLength]
  exact ⟨rfl, formLength_mem _, hcomplete⟩

/-- A payload of `k` bytes holds a value of `8k` bits: each byte is put below what the bytes after it make. -/
theorem toNat_assemble_little_lt (p : List Byte) : (assemble .littleEndian p).toNat < 2 ^ (8 * p.length) := by
  induction p with
  | nil => decide
  | cons b bs ih =>
    have hpow : 2 ^ (8 * (bs.length + 1)) = 2 ^ (8 * bs.length) * 2 ^ 8 := by rw [← pow_add]; rfl
    rw [assemble_little_cons, BitVec.toNat_or, List.length_cons]
    apply Nat.or_lt_two_pow
    · have hb : (zext64 b).toNat = b.toNat := BitVec.toNat_setWidth_of_le (by decide)
      rw [hb]
      exact b.isLt.trans_le (Nat.pow_le_pow_right (by decide) (by omega))
    · rw [BitVec.toNat_shiftLeft, Nat.shiftLeft_eq]
      exact (Nat.mod_le _ _).trans_lt (by omega)

theorem toNat_assemble_lt (o : ByteOrder) (p : List Byte) : (assemble o p).toNat < 2 ^ (8 * p.length) := by
  cases o
  · exact toNat_assemble_little_lt p
  · rw [assemble_big, ← List.length_reverse]; exact toNat_assemble_little_lt p.reverse

/-- The value a form holds fits its payload (R88). -/
theorem toNat_lanesValue_lt {b : Lanes} {c : SizeClass} (h : classOfPrefix b[0] = c) (hc : c ≠ .tiny) (o : ByteOrder) :
    (lanesValue o b).toNat < 2 ^ (8 * c.width) := by
  have hlt := toNat_assemble_lt o ((b.toList.drop 1).take c.width)
  rwa [length_payload, ← lanesValue_of_payload h hc] at hlt

/-- The lanes that a Large form of a value is laid on hold that value, canonical or not (R86). -/
theorem lanesValue_large (o : ByteOrder) (v : Value) : lanesValue o (lanesOfBytes (0xFF :: render o v 8)) = v := by
  have hlen : (0xFF :: render o v 8 : List Byte).length = 9 := by rw [List.length_cons, render_length]
  rw [lanesValue_of_payload (c := .large) rfl (by decide), lanesOfBytes_toList _ hlen, List.drop_one, List.tail_cons,
    SizeClass.width, List.take_of_length_le (render_length o v 8).le, assemble_render o 8 v v.isLt]

/-- Settles O21: the value of an OK fits the payload the prefix selects, and eight bytes can hold every value. -/
theorem valueBoundedByPrefix : Obligations.ValueBoundedByPrefix := by
  refine ⟨fun s t d o h hd hs => ?_, fun v o => ?_⟩
  · obtain ⟨-, rfl⟩ := exec_decodeOf_ok h hd hs
    refine ⟨fun hp => ?_, fun hp => ?_, fun hp => ?_⟩
    · rw [lanesValue_of_tiny (classOfPrefix_of_le hp)]
      exact BitVec.toNat_setWidth_of_le (by decide)
    · exact Nat.le_of_lt_succ (toNat_lanesValue_lt (c := .small) (congrArg classOfPrefix hp) (by decide) o)
    · exact Nat.le_of_lt_succ (toNat_lanesValue_lt (c := .medium) (congrArg classOfPrefix hp) (by decide) o)
  · have hexec := exec_decodeOf_complete (o := o) (c := .large)
      (s := State.reset.setDecIn ⟨lanesOfBytes (0xFF :: render o v 8), 9, orderBit o⟩ DecIn.zeros) rfl rfl (Nat.le_refl 9)
    exact ⟨_, _, _, rfl, hexec, rfl, rfl, lanesValue_large o v⟩

/-! No request faults. -/

/-- Settles O39: a request is answered when its block's input bits are known, and refused otherwise. -/
theorem noRequestFaults : Obligations.NoRequestFaults := by
  have hexec : ∀ (i : Instr) (s : State) (r : Fault), exec i s ≠ .fault r := by
    intro i s r hfault
    obtain ⟨hanswered, hrefused⟩ := everyKnownRequestIsAnswered i s
    by_cases hk : s.Known (blockOf i)
    · obtain ⟨t, ht⟩ := hanswered hk
      rw [ht] at hfault; cases hfault
    · rw [hrefused hk] at hfault; cases hfault
  exact ⟨hexec, fun s => hexec (fetchOperation s) s⟩

end Sys2Proof.Machine
end

section
/-! PROOFS. The statements on encode requests: what each range of values is answered in each byte order (R100 to R104,
R106, R107, R110), and that the two codecs are each other's inverse on canonical forms (R67, R108, R109). -/

namespace Sys2Proof.Machine

/-! The two round trips. -/

/-- Settles O33: lanes that hold the form are answered as the contract answers the form, with its value and length. -/
theorem decodeInvertsEncode : Obligations.DecodeInvertsEncode := by
  intro s o hk
  refine ⟨_, exec_encodeOf_known hk, fun u hu hlen hlanes => ?_⟩
  rw [exec_decodeOf_known hu, decodeResult_of_encodedForm o hlen hlanes, contractDecode_encodedForm_self]
  rfl

theorem width_eq_zero_iff (c : SizeClass) : c.width = 0 ↔ c = .tiny := by cases c <;> decide

/-- The length of a form tells its class (R60, R61). -/
theorem formLength_eq_iff {c c' : SizeClass} : c.formLength = c'.formLength ↔ c = c' := by
  cases c <;> cases c' <;> decide

theorem eq_of_classOfPrefix_small : ∀ p : Byte, classOfPrefix p = .small → p = 0xFD := by decide

theorem eq_of_classOfPrefix_medium : ∀ p : Byte, classOfPrefix p = .medium → p = 0xFE := by decide

theorem eq_of_classOfPrefix_large : ∀ p : Byte, classOfPrefix p = .large → p = 0xFF := by decide

/-- Each class but Tiny has one prefix (R64). -/
theorem classOfPrefix_inj {p q : Byte} (h : classOfPrefix p = classOfPrefix q) (hc : classOfPrefix p ≠ .tiny) :
    p = q := by
  cases hp : classOfPrefix p with
  | tiny => exact absurd hp hc
  | small => rw [eq_of_classOfPrefix_small p hp, eq_of_classOfPrefix_small q (h.symm.trans hp)]
  | medium => rw [eq_of_classOfPrefix_medium p hp, eq_of_classOfPrefix_medium q (h.symm.trans hp)]
  | large => rw [eq_of_classOfPrefix_large p hp, eq_of_classOfPrefix_large q (h.symm.trans hp)]

theorem zext64_inj {p q : Byte} (h : zext64 p = zext64 q) : p = q := by
  simpa [zext64] using congrArg (BitVec.setWidth 8) h

/-- The lanes of a form are its prefix and the payload lanes (R65). -/
theorem take_formLength_toList (b : Lanes) (c : SizeClass) :
    b.toList.take c.formLength = b[0] :: (b.toList.drop 1).take c.width := by
  have hcons : b.toList = b[0] :: b.toList.drop 1 := List.drop_eq_getElem_cons (i := 0) (by simp)
  calc b.toList.take c.formLength
      = (b[0] :: b.toList.drop 1).take (c.width + 1) := by rw [← hcons, SizeClass.formLength, Nat.add_comm]
    _ = b[0] :: (b.toList.drop 1).take c.width := List.take_succ_cons

/-- The encoder chooses the prefix that a canonical form has (R67, R100). -/
theorem prefixOfValue_lanesValue {o : ByteOrder} {b : Lanes}
    (h : classOfPrefix b[0] = classOfValue (lanesValue o b)) : prefixOfValue (lanesValue o b) = b[0] := by
  by_cases hc : classOfPrefix b[0] = .tiny
  · have hw : (classOfValue (lanesValue o b)).width = 0 := by rw [← h, hc]; rfl
    exact zext64_inj ((zext64_prefixOfValue hw).trans (lanesValue_of_tiny hc o))
  · exact (classOfPrefix_inj (h.trans (classOfPrefix_prefixOfValue _).symm) hc).symm

/-- The payload lanes are the value they hold, rendered in as many bytes as the prefix selects, canonical or not (R66). -/
theorem render_lanesValue (o : ByteOrder) (b : Lanes) :
    render o (lanesValue o b) (classOfPrefix b[0]).width = (b.toList.drop 1).take (classOfPrefix b[0]).width := by
  have hlen := length_payload b (classOfPrefix b[0])
  by_cases hw : (classOfPrefix b[0]).width = 0
  · rw [hw]; rfl
  · have hmax : 1 + (classOfPrefix b[0]).width ≤ 9 := formLength_le _
    have h := render_assemble o ((b.toList.drop 1).take (classOfPrefix b[0]).width) (by omega)
    rwa [hlen, ← lanesValue_of_payload rfl (mt (width_eq_zero_iff _).2 hw)] at h

/-- The encoder gives a form back exactly when its prefix has the class of its value (R67, R109). -/
theorem encodedForm_lanesValue_eq_iff (o : ByteOrder) (b : Lanes) :
    encodedForm o (lanesValue o b) = b.toList.take (classOfPrefix b[0]).formLength ↔
      classOfPrefix b[0] = classOfValue (lanesValue o b) := by
  refine ⟨fun h => ?_, fun h => ?_⟩
  · have hlen := congrArg List.length h
    rw [encodedForm_length, take_formLength_toList, List.length_cons, length_payload, Nat.add_comm] at hlen
    exact (formLength_eq_iff.1 hlen).symm
  · rw [encodedForm, prefixOfValue_lanesValue h, ← h, render_lanesValue, take_formLength_toList]

/-- Settles O34: the lanes the decoder consumed are the form it read, and forms of different classes differ in length. -/
theorem encodeInvertsDecodeOnCanonicalForms : Obligations.EncodeInvertsDecodeOnCanonicalForms := by
  intro s t u d o h hd hs hk hv
  obtain ⟨-, rfl⟩ := exec_decodeOf_ok h hd hs
  refine ⟨_, exec_encodeOf_known hk, ?_, fun hne hlen => hne ?_⟩
  · rw [encodeResult_form, hv, toNat_ofNat_formLength]
    exact encodedForm_lanesValue_eq_iff o s.decIn.buf
  · have hlen' := congrArg BitVec.toNat hlen
    rw [encodeResult_len_toNat, toNat_ofNat_formLength, hv] at hlen'
    exact (formLength_eq_iff.1 hlen').symm

/-- The contract gives the value of a well-formed form (R80, R83). -/
theorem contractDecode_bytes (o : ByteOrder) {f : EncodedForm} (hf : f.wellFormed = true) :
    contractDecode o f.bytes = .ok (formValue o f) f.bytes.length := by
  have hsplit := splitForm_bytes_append hf []
  rw [List.append_nil] at hsplit
  rw [contractDecode, hsplit]

/-- The form of a value, as prefix and payload (R65, R100). -/
def formOfValue (o : ByteOrder) (v : Value) : EncodedForm :=
  ⟨decodePrefix (prefixOfValue v), render o v (classOfValue v).width⟩

theorem formOfValue_bytes (o : ByteOrder) (v : Value) : (formOfValue o v).bytes = encodedForm o v := by
  rw [EncodedForm.bytes, formOfValue, prefixByteOf_decodePrefix, encodedForm]

theorem formOfValue_formClass (o : ByteOrder) (v : Value) : (formOfValue o v).head.formClass = some (classOfValue v) := by
  rw [formOfValue, formClass_decodePrefix, classOfPrefix_prefixOfValue]

theorem formOfValue_wellFormed (o : ByteOrder) (v : Value) : (formOfValue o v).wellFormed = true :=
  (wellFormed_iff _).2 ⟨_, formOfValue_formClass o v, render_length o v _⟩

/-- The form of a value holds it: the contract reads both off the same bytes (R108). -/
theorem formValue_formOfValue (o : ByteOrder) (v : Value) : formValue o (formOfValue o v) = v := by
  have h := contractDecode_bytes o (formOfValue_wellFormed o v)
  rw [formOfValue_bytes, contractDecode_encodedForm_self] at h
  exact (DecResult.ok.inj h).1.symm

/-- Settles O35: the form is that of the value, which it holds, and its prefix selects the value's class. -/
theorem encoderWritesCanonicalForms : Obligations.EncoderWritesCanonicalForms := by
  intro s t e o h he
  obtain ⟨-, rfl⟩ := exec_encodeOf_next h
  cases he
  refine ⟨formOfValue o s.encIn.value, formOfValue_wellFormed _ _, ?_, ?_, formValue_formOfValue _ _⟩
  · rw [canonicalForm, formOfValue_formClass, formValue_formOfValue, beq_self_eq_true]
  · rw [formOfValue_bytes, encodeResult_form]

/-! What each range of values is answered. -/

/-- The lanes after a byte sequence are 0x00 as they are, so zeros appended to it change no lane (R75). -/
theorem lanesOfBytes_append_zeros (l : List Byte) (n : Nat) : lanesOfBytes (l ++ List.replicate n 0) = lanesOfBytes l := by
  apply Vector.ext
  intro k hk
  rw [lanesOfBytes_getElem _ k hk, lanesOfBytes_getElem _ k hk]
  rcases Nat.lt_or_ge k l.length with hlt | hge
  · exact List.getD_append _ _ _ _ hlt
  · rw [List.getD_append_right _ _ _ _ hge, List.getD_eq_default _ _ hge]
    simp

/-- The encoder drives the form, laid on its lanes, and its length (R31). -/
theorem encodeResult_eq (o : ByteOrder) (v : Value) :
    encodeResult o v = ⟨lanesOfBytes (encodedForm o v), BitVec.ofNat 4 (classOfValue v).formLength⟩ := by
  rw [encodeResult, encodedLanes, lanesOfBytes_append_zeros]

theorem encodedForm_of_tiny {v : Value} (h : classOfValue v = .tiny) (o : ByteOrder) :
    encodedForm o v = [v.extractLsb' 0 8] := by
  rw [encodedForm, prefixOfValue, h]; rfl

theorem exec_encodeOf_tiny (o : ByteOrder) {s : State} (hk : s.EncKnown) (h : classOfValue s.encIn.value = .tiny) :
    exec (encodeOf o) s = .next (s.setEncResp ⟨lanesOfBytes [s.encIn.value.extractLsb' 0 8], 1⟩) := by
  rw [exec_encodeOf_known hk, encodeResult_eq, encodedForm_of_tiny h, h]; rfl

theorem exec_encodeOf_small (o : ByteOrder) {s : State} (hk : s.EncKnown) (h : classOfValue s.encIn.value = .small) :
    exec (encodeOf o) s = .next (s.setEncResp ⟨lanesOfBytes (0xFD :: render o s.encIn.value 2), 3⟩) := by
  rw [exec_encodeOf_known hk, encodeResult_eq, encodedForm, prefixOfValue, h]; rfl

theorem exec_encodeOf_medium (o : ByteOrder) {s : State} (hk : s.EncKnown) (h : classOfValue s.encIn.value = .medium) :
    exec (encodeOf o) s = .next (s.setEncResp ⟨lanesOfBytes (0xFE :: render o s.encIn.value 4), 5⟩) := by
  rw [exec_encodeOf_known hk, encodeResult_eq, encodedForm, prefixOfValue, h]; rfl

theorem exec_encodeOf_large (o : ByteOrder) {s : State} (hk : s.EncKnown) (h : classOfValue s.encIn.value = .large) :
    exec (encodeOf o) s = .next (s.setEncResp ⟨lanesOfBytes (0xFF :: render o s.encIn.value 8), 9⟩) := by
  rw [exec_encodeOf_known hk, encodeResult_eq, encodedForm, prefixOfValue, h]; rfl

/-- Settles O26: the range gives the class, and the payload is rendered low byte first. -/
theorem encodeLittleEndianForm : Obligations.EncodeLittleEndianForm := by
  intro s hk
  obtain ⟨htiny, hsmall, hmedium, hlarge⟩ := classOfValueByRange s.encIn.value
  exact ⟨fun hv => exec_encodeOf_tiny .littleEndian hk (htiny.2 hv),
    fun hlo hhi => exec_encodeOf_small .littleEndian hk (hsmall.2 ⟨hlo, hhi⟩),
    fun hlo hhi => exec_encodeOf_medium .littleEndian hk (hmedium.2 ⟨hlo, hhi⟩),
    fun hlo => exec_encodeOf_large .littleEndian hk (hlarge.2 hlo)⟩

/-- Settles O27: the range gives the class, and the payload is rendered high byte first. -/
theorem encodeBigEndianForm : Obligations.EncodeBigEndianForm := by
  intro s hk
  obtain ⟨htiny, hsmall, hmedium, hlarge⟩ := classOfValueByRange s.encIn.value
  exact ⟨fun hv => exec_encodeOf_tiny .bigEndian hk (htiny.2 hv),
    fun hlo hhi => exec_encodeOf_small .bigEndian hk (hsmall.2 ⟨hlo, hhi⟩),
    fun hlo hhi => exec_encodeOf_medium .bigEndian hk (hmedium.2 ⟨hlo, hhi⟩),
    fun hlo => exec_encodeOf_large .bigEndian hk (hlarge.2 hlo)⟩

/-- The length port carries the form length of the value's class (R106). -/
theorem encodeResult_len_of_class {v : Value} {c : SizeClass} (h : classOfValue v = c) (o : ByteOrder) :
    (encodeResult o v).len = BitVec.ofNat 4 c.formLength := by
  rw [encodeResult, h]

/-- Settles O28: the range gives the class, and the class the length. -/
theorem encodedLengthByValue : Obligations.EncodedLengthByValue := by
  intro s o hk
  obtain ⟨htiny, hsmall, hmedium, hlarge⟩ := classOfValueByRange s.encIn.value
  exact ⟨_, exec_encodeOf_known hk, fun hv => encodeResult_len_of_class (htiny.2 hv) o,
    fun hlo hhi => encodeResult_len_of_class (hsmall.2 ⟨hlo, hhi⟩) o,
    fun hlo hhi => encodeResult_len_of_class (hmedium.2 ⟨hlo, hhi⟩) o,
    fun hlo => encodeResult_len_of_class (hlarge.2 hlo) o⟩

/-! What does not depend on the byte order. -/

/-- Settles O30: prefix and length are functions of the value, and the prefix selects the value's class. -/
theorem classDoesNotDependOnOrder : Obligations.ClassDoesNotDependOnOrder := by
  intro s s' t t' e e' o o' hv h he h' he'
  obtain ⟨-, rfl⟩ := exec_encodeOf_next h
  obtain ⟨-, rfl⟩ := exec_encodeOf_next h'
  cases he; cases he'
  rw [← hv]
  exact ⟨rfl, rfl, rfl, classOfPrefix_prefixOfValue _⟩

/-- The payload is what follows the prefix in the form (R100). -/
theorem encodeResult_form_drop_one (o : ByteOrder) (v : Value) :
    (encodeResult o v).form.drop 1 = render o v (classOfValue v).width := by
  rw [encodeResult_form, encodedForm, List.drop_one, List.tail_cons]

/-- Settles O32: the prefix and the length are the value's, the payload is rendered the other way round, and a Tiny value
has none. -/
theorem encodeOrdersReverseThePayload : Obligations.EncodeOrdersReverseThePayload := by
  intro s hk
  refine ⟨_, _, exec_encodeOf_known (o := .littleEndian) hk, exec_encodeOf_known (o := .bigEndian) hk, rfl, rfl, ?_,
    fun hv => ?_⟩
  · rw [encodeResult_form_drop_one, encodeResult_form_drop_one, render_big]
  · obtain ⟨htiny, -⟩ := classOfValueByRange s.encIn.value
    have hc := htiny.2 hv
    rw [encodeResult_eq, encodeResult_eq, encodedForm_of_tiny hc, encodedForm_of_tiny hc]

/-! The bytes of the payload. -/

/-- Payload byte `i` is driven on lane `1 + i` (R100, R102). -/
theorem encodeResult_buf_payload (o : ByteOrder) {v : Value} {i : Nat} (hi : i < (classOfValue v).width) (h : 1 + i < 9) :
    (encodeResult o v).buf[1 + i] = byteAt v (payloadShift o (classOfValue v).width i) := by
  simp only [encodeResult_eq, lanesOfBytes_getElem _ _ h]
  rw [encodedForm, Nat.add_comm 1 i, List.getD_cons_succ, List.getD_eq_getElem _ _ (by rwa [render_length])]
  simp [render]

/-- In LittleEndian byte `i` of the value is on lane `1 + i` (R103). -/
theorem encodeResult_little_buf {v : Value} {i : Nat} (hi : i < (classOfValue v).width) (h : 1 + i < 9) :
    (encodeResult .littleEndian v).buf[1 + i] = byteAt v (8 * i) :=
  encodeResult_buf_payload .littleEndian hi h

/-- In BigEndian byte `i` of the value is on lane `w - i` (R104). -/
theorem encodeResult_big_buf {v : Value} {i : Nat} (hi : i < (classOfValue v).width) (h : (classOfValue v).width - i < 9) :
    (encodeResult .bigEndian v).buf[(classOfValue v).width - i] = byteAt v (8 * i) := by
  have hlane : (classOfValue v).width - i = 1 + ((classOfValue v).width - 1 - i) := by omega
  have hbyte : (classOfValue v).width - 1 - ((classOfValue v).width - 1 - i) = i := by omega
  simp only [hlane]
  rw [encodeResult_buf_payload .bigEndian (by omega) (by omega), payloadShift, hbyte]

theorem toNat_byteAt (v : Value) (lo : Nat) : (byteAt v lo).toNat = v.toNat / 2 ^ lo % 256 := by
  rw [byteAt, BitVec.extractLsb'_toNat, Nat.shiftRight_eq_div_pow]

/-- The bytes above a value's significant ones are 0 (R107). -/
theorem byteAt_eq_zero_of_lt {v : Value} {lo : Nat} (h : v.toNat < 2 ^ lo) : byteAt v lo = 0 := by
  apply BitVec.eq_of_toNat_eq
  rw [toNat_byteAt, Nat.div_eq_of_lt h]
  rfl

/-- Settles O31: in both orders the lane named holds byte `i` of the value, which is 0 above the significant bytes. -/
theorem excessPayloadBytesAreZero : Obligations.ExcessPayloadBytesAreZero := by
  intro s t u e f i he hres hf hres'
  obtain ⟨-, rfl⟩ := exec_encodeOf_next (o := .littleEndian) he
  obtain ⟨-, rfl⟩ := exec_encodeOf_next (o := .bigEndian) hf
  cases hres; cases hres'
  refine ⟨fun h h' hi hv => ?_, ?_, ?_, fun hc => ?_, fun hc => ?_⟩
  · rw [encodeResult_little_buf hi, encodeResult_big_buf hi, byteAt_eq_zero_of_lt hv]
    exact ⟨rfl, rfl⟩
  · rw [encodeResult_form_drop_one, render_length]
  · rw [encodeResult_form_drop_one, render_length]
  · exact toNat_lt_of_width_ne_zero (mt (width_eq_zero_iff _).1 hc)
  · obtain ⟨-, hsmall, -, -⟩ := classOfValueByRange s.encIn.value
    have hv := (hsmall.1 hc).2
    have hw : (classOfValue s.encIn.value).width = 2 := by rw [hc]; rfl
    have hbyte : (byteAt s.encIn.value (8 * 1)).toNat ≤ 0x0F := by rw [toNat_byteAt]; omega
    have hlittle := encodeResult_little_buf (v := s.encIn.value) (i := 1) (by omega) (by omega)
    have hbig := encodeResult_big_buf (v := s.encIn.value) (i := 1) (by omega) (by omega)
    simp only [hw] at hbig
    exact ⟨hv, hlittle ▸ hbyte, hbig ▸ hbyte⟩

end Sys2Proof.Machine
end

section
/-! PROOFS. The statements on the two errors: which of the three results a decode request is answered with (R125), and what
EMPTY (R121) and TRUNCATED (R122) record, for the decode operations and for the wire prefixes. -/

namespace Sys2Proof.Machine

/-! The three results, told apart by the number of valid bytes. -/

theorem DecOut.ok_status (v : Value) (n : Nat) : (DecOut.ofResult (.ok v n)).status = 0 := rfl

theorem DecOut.empty_status : (DecOut.ofResult .empty).status = 1 := rfl

theorem DecOut.truncated_status (n k : Nat) : (DecOut.ofResult (.truncated n k)).status = 2 := rfl

theorem decodeResult_empty {o : ByteOrder} {d : DecIn} (h : effLen d.len = 0) : decodeResult o d = .empty := by
  rw [decodeResult, if_pos h]

/-- A decode with some, but not all, of the form's bytes valid is TRUNCATED (R83, R122). -/
theorem decodeResult_truncated {o : ByteOrder} {d : DecIn} (hpos : 1 ≤ effLen d.len)
    (hshort : effLen d.len < (classOfPrefix d.buf[0]).formLength) :
    decodeResult o d = .truncated (classOfPrefix d.buf[0]).formLength (effLen d.len) := by
  rw [decodeResult_pos hpos, formResult_short hshort]

/-- Settles O24: no valid byte, fewer than the form's length, and at least that many are the three cases, one result each. -/
theorem statusFollowsTheLength : Obligations.StatusFollowsTheLength := by
  intro s o hk
  have hlength : (classOfPrefix s.decIn.buf[0]).formLength = 1 + (classOfPrefix s.decIn.buf[0]).width := rfl
  refine ⟨_, exec_decodeOf_known hk, ?_⟩
  rcases Nat.eq_zero_or_pos (effLen s.decIn.len) with hempty | hpos
  · rw [decodeResult_empty hempty, DecOut.empty_status]
    exact ⟨.inr (.inl rfl), iff_of_true rfl hempty, iff_of_false (by decide) (by omega),
      iff_of_false (by decide) (by omega)⟩
  rcases Nat.lt_or_ge (effLen s.decIn.len) (classOfPrefix s.decIn.buf[0]).formLength with hshort | hcomplete
  · rw [decodeResult_truncated hpos hshort, DecOut.truncated_status]
    exact ⟨.inr (.inr rfl), iff_of_false (by decide) (by omega), iff_of_true rfl ⟨hpos, hshort⟩,
      iff_of_false (by decide) (by omega)⟩
  · rw [decodeResult_complete hcomplete, DecOut.ok_status]
    exact ⟨.inl rfl, iff_of_false (by decide) (by omega), iff_of_false (by decide) (by omega),
      iff_of_true rfl hcomplete⟩

/-- Where the response is known, "some response has this status" speaks of that one. -/
theorem exists_decResp_status_iff {i : Instr} {s : State} {d : DecOut} (h : exec i s = .next (s.setDecResp d))
    (c : BitVec 2) : (∃ t d', exec i s = .next t ∧ t.decResp = some d' ∧ d'.status = c) ↔ d.status = c := by
  refine ⟨?_, fun hc => ⟨_, d, h, rfl, hc⟩⟩
  rintro ⟨t, d', ht, hd, hc⟩
  cases h.symm.trans ht
  cases hd
  exact hc

/-- Settles O11: without a valid byte the result is EMPTY, which drives status 1 and zeros; no other result has status 1. -/
theorem decodeEmptyWhenNoByte : Obligations.DecodeEmptyWhenNoByte := by
  intro s o hk
  refine ⟨fun hlen => ?_, ?_⟩
  · rw [exec_decodeOf_known hk, decodeResult_empty ((effLen_eq_zero_iff _).2 hlen)]
    rfl
  · obtain ⟨d, hexec, -, hempty, -, -⟩ := statusFollowsTheLength s o hk
    rw [exists_decResp_status_iff hexec, hempty, effLen_eq_zero_iff]

/-! What a TRUNCATED records. -/

/-- A length below 9 is driven on `dec_available` as it stands (R81, R122). -/
theorem ofNat_effLen_of_lt {len : Count} (h : len.toNat < 9) : BitVec.ofNat 4 (effLen len) = len := by
  rw [effLen_of_lt h, BitVec.ofNat_toNat, BitVec.setWidth_eq]

/-- The outputs of a short form: the length its class needs, and `dec_len` (R122). -/
theorem formResult_short_out {p : Byte} {d : DecIn} {c : SizeClass} (o : ByteOrder) (hc : classOfPrefix p = c)
    (hshort : d.len.toNat < c.formLength) :
    DecOut.ofResult (formResult o p d) = ⟨2, 0, 0, BitVec.ofNat 4 c.formLength, d.len⟩ := by
  subst hc
  have hnine : d.len.toNat < 9 := hshort.trans_le (formLength_le _)
  rw [formResult_short (by rwa [effLen_of_lt hnine]), DecOut.ofResult, ofNat_effLen_of_lt hnine]
  rfl

/-- A known request with a short form is answered TRUNCATED (R122). -/
theorem exec_decodeOf_short (o : ByteOrder) {s : State} {c : SizeClass} (hk : s.DecKnown)
    (hc : classOfPrefix s.decIn.buf[0] = c) (hpos : 1 ≤ s.decIn.len.toNat) (hshort : s.decIn.len.toNat < c.formLength) :
    exec (decodeOf o) s = .next (s.setDecResp ⟨2, 0, 0, BitVec.ofNat 4 c.formLength, s.decIn.len⟩) := by
  rw [exec_decodeOf_known hk, decodeResult_pos ((le_effLen_iff (by decide) _).2 hpos), formResult_short_out o hc hshort]

/-- A known wire prefix with a short form is answered TRUNCATED (R122; assumption 6). -/
theorem exec_wirePrefix_short {i : Instr} {s : State} {c : SizeClass} (hk : s.DecKnown) (hi : i.formClass = some c)
    (hpos : 1 ≤ s.decIn.len.toNat) (hshort : s.decIn.len.toNat < c.formLength) :
    exec i s = .next (s.setDecResp ⟨2, 0, 0, BitVec.ofNat 4 c.formLength, s.decIn.len⟩) := by
  rw [exec_wirePrefix_known (by rw [hi]; rfl) hk ((le_effLen_iff (by decide) _).2 hpos),
    formResult_short_out _ (classOfPrefix_prefixByteOf hi) hshort]

/-- The forms that some valid bytes can be too few for: a sentinel prefix, and a length below its class's (R122). -/
theorem shortForm_cases {d : DecIn} (hpos : 1 ≤ effLen d.len)
    (hshort : effLen d.len < (classOfPrefix d.buf[0]).formLength) :
    (d.buf[0] = 0xFD ∧ d.len.toNat ≤ 2) ∨ (d.buf[0] = 0xFE ∧ d.len.toNat ≤ 4) ∨
      (d.buf[0] = 0xFF ∧ d.len.toNat ≤ 8) := by
  have hlen : d.len.toNat < (classOfPrefix d.buf[0]).formLength :=
    Nat.lt_of_not_le fun h => Nat.not_le.2 hshort ((le_effLen_iff (formLength_le _) _).2 h)
  cases hc : classOfPrefix d.buf[0] with
  | tiny => rw [hc] at hshort; exact absurd hshort (Nat.not_lt.2 hpos)
  | small => rw [hc] at hlen; exact .inl ⟨eq_of_classOfPrefix_small _ hc, Nat.le_of_lt_succ hlen⟩
  | medium => rw [hc] at hlen; exact .inr (.inl ⟨eq_of_classOfPrefix_medium _ hc, Nat.le_of_lt_succ hlen⟩)
  | large => rw [hc] at hlen; exact .inr (.inr ⟨eq_of_classOfPrefix_large _ hc, Nat.le_of_lt_succ hlen⟩)

/-- Settles O12: each sentinel prefix selects its class, and a short form of that class is TRUNCATED; a TRUNCATED was a short
form, which a Tiny prefix never has. -/
theorem decodeTruncatedWhenShort : Obligations.DecodeTruncatedWhenShort := by
  intro s o hk
  refine ⟨fun hp => exec_decodeOf_short o (c := .small) hk (congrArg classOfPrefix hp),
    fun hp => exec_decodeOf_short o (c := .medium) hk (congrArg classOfPrefix hp),
    fun hp => exec_decodeOf_short o (c := .large) hk (congrArg classOfPrefix hp), fun h => ?_⟩
  obtain ⟨d, hexec, -, -, htruncated, -⟩ := statusFollowsTheLength s o hk
  rw [exists_decResp_status_iff hexec] at h
  obtain ⟨hpos, hshort⟩ := htruncated.1 h
  exact ⟨(le_effLen_iff (by decide) _).1 hpos, shortForm_cases hpos hshort⟩

/-- Settles O17: a sentinel prefix with a short form is TRUNCATED, and with no valid byte the prefix is not looked at. -/
theorem prefixesEndShortForms : Obligations.PrefixesEndShortForms := by
  intro s hk
  refine ⟨exec_wirePrefix_short (c := .small) hk rfl, exec_wirePrefix_short (c := .medium) hk rfl,
    exec_wirePrefix_short (c := .large) hk rfl, fun hlen p => ?_⟩
  rw [exec_decodePrefix, prefixRequest_eq, if_pos hk, prefixResult, if_pos ((effLen_eq_zero_iff _).2 hlen)]
  rfl

end Sys2Proof.Machine
end

section
/-! PROOFS. The statements on reset and hazards: new inputs and the responses on record (R28, R33, R140, R142), the recovery
from TRUNCATED (R146), the canonical check (R147), and the threshold between Small and Medium (R63, R148). -/

namespace Sys2Proof.Machine

/-! New inputs take the response of their block away. -/

theorem setBlock_responsesCurrent {s : State} (h : s.ResponsesCurrent) (b : Block) : (s.setBlock b).ResponsesCurrent := h

/-- No response is left of the decoder, and the encoder's ports are as they were (R142). -/
theorem setDecIn_responsesCurrent {s : State} (h : s.ResponsesCurrent) (i mask : DecIn) :
    (s.setDecIn i mask).ResponsesCurrent := ⟨nofun, h.2⟩

/-- No response is left of the encoder, and the decoder's ports are as they were (R142). -/
theorem setEncIn_responsesCurrent {s : State} (h : s.ResponsesCurrent) (i mask : EncIn) :
    (s.setEncIn i mask).ResponsesCurrent := ⟨h.1, nofun⟩

/-- Presenting a selector asks its block and drives that block's inputs, and nothing else. -/
theorem placeSelector_responsesCurrent {s : State} (h : s.ResponsesCurrent) (op : BitVec 2) :
    (placeSelector op s).ResponsesCurrent := by
  cases hb : blockOfBit (op.extractLsb' 1 1) with
  | decoder =>
    rw [placeSelector_of_decoder hb]
    exact setDecIn_responsesCurrent (setBlock_responsesCurrent h _) _ _
  | encoder =>
    rw [placeSelector_of_encoder hb]
    exact setEncIn_responsesCurrent (setBlock_responsesCurrent h _) _ _

/-- A table word is presented as a selector or as the bytes of a form, or changes nothing (assumptions 7, 8). -/
theorem withFetchWord_responsesCurrent {s : State} (h : s.ResponsesCurrent) (nbits w : Nat) :
    (s.withFetchWord nbits w).ResponsesCurrent := by
  unfold State.withFetchWord placeWord
  split
  · exact placeSelector_responsesCurrent h _
  · exact setDecIn_responsesCurrent (setBlock_responsesCurrent h _) _ _
  · exact h

/-- Settles O56: the block whose inputs are driven has no response left, and the other block's ports do not change. -/
theorem drivingInputsKeepsResponsesCurrent : Obligations.DrivingInputsKeepsResponsesCurrent := by
  intro s h
  refine ⟨setBlock_responsesCurrent h, fun i mask => ?_, fun i mask => ?_, withFetchWord_responsesCurrent h⟩
  · exact ⟨setDecIn_responsesCurrent h i mask, rfl, fun hknown => if_pos hknown, fun hunknown => if_neg hunknown⟩
  · exact ⟨setEncIn_responsesCurrent h i mask, rfl, fun hknown => if_pos hknown, fun hunknown => if_neg hunknown⟩

/-! Recovery from TRUNCATED. -/

/-- A contract that ends TRUNCATED has read a prefix, and tells the length of that prefix's form (R122). -/
theorem contractDecode_truncated {o : ByteOrder} {bytes : List Byte}
    (h : (DecOut.ofResult (contractDecode o bytes)).status = 2) :
    ∃ p bs, bytes = p :: bs ∧
      (DecOut.ofResult (contractDecode o bytes)).needed = BitVec.ofNat 4 (classOfPrefix p).formLength := by
  cases bytes with
  | nil => cases h
  | cons p bs =>
    refine ⟨p, bs, rfl, ?_⟩
    rw [contractDecode_cons] at h ⊢
    split_ifs at h ⊢ with hshort hw
    · rfl
    · cases h
    · cases h

/-- With the whole payload behind its prefix the contract ends OK, of the form's length (R83). -/
theorem contractDecode_complete (o : ByteOrder) {p : Byte} {bs : List Byte} (h : (classOfPrefix p).width ≤ bs.length) :
    ∃ v, contractDecode o (p :: bs) = .ok v (classOfPrefix p).formLength := by
  rw [contractDecode_cons, if_neg (Nat.not_lt.2 h)]
  split
  · next hw => exact ⟨_, by rw [SizeClass.formLength, hw]⟩
  · exact ⟨_, rfl⟩

/-- Settles O49: the bytes that follow do not change the prefix, and with them its form is complete. -/
theorem truncationIsRecovered : Obligations.TruncationIsRecovered := by
  intro s t d o bytes more hstep hd hs hneeded
  rw [decodeStepMeetsTheContract, List.drop_zero] at hstep
  cases hstep
  cases hd
  obtain ⟨p, bs, rfl, hn⟩ := contractDecode_truncated hs
  rw [hn, toNat_ofNat_formLength, SizeClass.formLength, List.length_cons] at hneeded
  have hcomplete : (classOfPrefix p).width ≤ (bs ++ more).length := by rw [List.length_append]; omega
  obtain ⟨v, hv⟩ := contractDecode_complete o hcomplete
  refine ⟨_, decodeStepMeetsTheContract _ o _ 0, ?_⟩
  rw [List.drop_zero, List.cons_append, hv, hn]
  exact ⟨rfl, rfl⟩

/-! The canonical check. -/

/-- The check compares the length the encoder gives for the value decoded with the length consumed (R147). -/
theorem canonicalCheck_of_decResp {o : ByteOrder} {s : State} {d : DecOut} (h : s.decResp = some d) :
    canonicalCheck o s = some (BitVec.ofNat 4 (classOfValue d.value).formLength == d.consumed) := by
  rw [canonicalCheck, h]
  simp only [step_presentEncode]
  rfl

/-- The length on a count port tells the class of the form (R60, R61). -/
theorem ofNat_formLength_eq_iff {c c' : SizeClass} :
    BitVec.ofNat 4 c.formLength = BitVec.ofNat 4 c'.formLength ↔ c = c' := by
  refine ⟨fun h => formLength_eq_iff.1 ?_, fun h => by rw [h]⟩
  rw [← toNat_ofNat_formLength c, h, toNat_ofNat_formLength]

/-- Settles O50: the lengths compared are those of the class of the value and of the class of the prefix. -/
theorem canonicalCheckFindsNonCanonical : Obligations.CanonicalCheckFindsNonCanonical := by
  intro s t d o h hd hs
  rw [canonicalCheck_of_decResp hd]
  obtain ⟨-, rfl⟩ := exec_decodeOf_ok h hd hs
  simp only [Option.some_inj, beq_iff_eq, beq_eq_false_iff_ne, ne_eq, ofNat_formLength_eq_iff]
  exact ⟨eq_comm, not_congr eq_comm⟩

/-! The threshold between Small and Medium. -/

/-- The form of a Medium value (R100). -/
theorem encodedForm_of_medium {v : Value} (h : classOfValue v = .medium) (o : ByteOrder) :
    encodedForm o v = 0xFE :: render o v 4 := by
  rw [encodedForm, prefixOfValue, h]; rfl

/-- Settles O36: above 4095 the class is Medium, and up to 65535 two payload bytes hold the value as four do. -/
theorem mediumThresholdIsKept : Obligations.MediumThresholdIsKept := by
  intro s a b o hk hlo hhi hka hlena hpa hpayloada hkb hlenb hpb hpayloadb
  obtain ⟨-, -, hmedium, -⟩ := classOfValueByRange s.encIn.value
  have hc : classOfValue s.encIn.value = .medium := hmedium.2 ⟨hlo, by omega⟩
  refine ⟨⟨_, exec_encodeOf_known hk, encodeResult_len_of_class hc o, ?_⟩, ?_, ?_⟩
  · rw [encodeResult_form, encodedForm_of_medium hc]
  · rw [exec_decodeOf_small o hka hpa (by rw [hlena]; decide), hpayloada, assemble_render o 2 _ (by omega)]
  · rw [exec_decodeOf_medium o hkb hpb (by rw [hlenb]; decide), hpayloadb, assemble_render o 4 _ (by omega)]

end Sys2Proof.Machine
end
